-- ==== Sys2Proof/Word.lean ====
section
/-! DEFINITION. The words of the machine: every value of the spec is an unsigned number of a
fixed width (00_scope.md R6, R9, R10). -/

namespace Sys2Proof

/-- One byte: a memory cell, a general register, a timer, an immediate `kk` (R6, R10). -/
abbrev Byte := BitVec 8

/-- Sixteen bits: an instruction word, `I`, `PC`, a return address (R6, R9). -/
abbrev Word := BitVec 16

/-- The 12-bit address field `nnn` of an instruction (R12). -/
abbrev Addr12 := BitVec 12

/-- The number of a general register `V0`..`VF` (R21). -/
abbrev Reg := Fin 16

/-- The number of a key of the 16-key latch (R29). -/
abbrev Key := Fin 16

/-- `VF`, the register that is also the flag (R22). -/
abbrev flagReg : Reg := 15

end Sys2Proof
end

