-- ==== Sys2Proof/Machine/Flags.lean ====
section
/-! DEFINITION. Every value the instructions write to `VF` as a flag (10_state.md R28, 42_alu.md R193). -/

namespace Sys2Proof.Machine

/-- A flag in `VF`: 1 or 0 (R28). -/
def flagByte (b : Bool) : Byte := if b then 1 else 0

/-- `8xy4`: 1 iff the unbounded sum is above 255 (R187). -/
def carryFlag (vx vy : Byte) : Byte := flagByte (255 < vx.toNat + vy.toNat)

/-- `8xy5` (and `8xy7` with the operands exchanged): 1 iff `a >= b`, no borrow (R188, R190). -/
def noBorrowFlag (a b : Byte) : Byte := flagByte (b.toNat ≤ a.toNat)

/-- `8xy6`: bit 0 of the shift source, before the shift (R189). -/
def lowBitFlag (src : Byte) : Byte := flagByte (src.getLsbD 0)

/-- `8xyE`: bit 7 of the shift source, before the shift (R191). -/
def highBitFlag (src : Byte) : Byte := flagByte (src.getLsbD 7)

/-- `Dxyn`: 1 iff some pixel went from 1 to 0 (45_display.md R262). -/
def collisionFlag (collided : Bool) : Byte := flagByte collided

/-- `Fx1E`: 1 iff `I + V[x]`, unbounded, is above 0xFFF (46_index_memory.md R282). -/
def indexFlag (i : Word) (vx : Byte) : Byte := flagByte (0xFFF < i.toNat + vx.toNat)

end Sys2Proof.Machine
end

