-- ==== Sys2Proof/Config.lean ====
section
/-! DEFINITION. What one machine fixes and the spec leaves open: SHIFT_SOURCE (R7), FONT (R17), and
the free input RANDOM (R8). Each is a constant without a body, so a claim about it holds for
every value it may have. -/

namespace Sys2Proof

/-- The two values of the parameter SHIFT_SOURCE (00_scope.md R7). -/
inductive ShiftSource
  | vy
  | vx
  deriving DecidableEq, Repr, Inhabited

/-- SHIFT_SOURCE, which operand `8xy6` and `8xyE` shift (R7, R194). The spec makes it a named
parameter; it is left free here (log 2). -/
opaque Config.shiftSource : ShiftSource

/-- The spec's default of SHIFT_SOURCE (R7, decision D1). No definition of the machine uses it. -/
def Config.defaultShiftSource : ShiftSource := .vy

/-- How many bytes the font takes: 16 glyphs of 5 bytes at 0x000..0x04F (R6, R17). -/
abbrev Config.fontBytes : Nat := 80

/-- FONT, the bytes of the built-in font; glyph `d` is `FONT[5d .. 5d+4]` (R17). The source does not
give them, and the spec makes them a named parameter; they are left free here (log 1). -/
opaque Config.font : Vector Byte Config.fontBytes

/-- The default of FONT (20_memory.md R62). PRESUMED: the spec takes the table from general
knowledge and forbids relying on it (log 1). No definition of the machine uses it. -/
def Config.defaultFont : List Byte :=
  [0xF0, 0x90, 0x90, 0x90, 0xF0,  0x20, 0x60, 0x20, 0x20, 0x70,
   0xF0, 0x10, 0xF0, 0x80, 0xF0,  0xF0, 0x10, 0xF0, 0x10, 0xF0] ++
  [0x90, 0x90, 0xF0, 0x10, 0x10,  0xF0, 0x80, 0xF0, 0x10, 0xF0,
   0xF0, 0x80, 0xF0, 0x90, 0xF0,  0xF0, 0x10, 0x20, 0x40, 0x40] ++
  [0xF0, 0x90, 0xF0, 0x90, 0xF0,  0xF0, 0x90, 0xF0, 0x10, 0xF0,
   0xF0, 0x90, 0xF0, 0x90, 0x90,  0xE0, 0x90, 0xE0, 0x90, 0xE0] ++
  [0xF0, 0x80, 0x80, 0x80, 0xF0,  0xE0, 0x90, 0x90, 0x90, 0xE0,
   0xF0, 0x80, 0xF0, 0x80, 0xF0,  0xF0, 0x80, 0xF0, 0x80, 0x80]

/-- RANDOM, the byte the environment gives to the `k`-th execution of `Cxkk` (R8, R192): any byte,
under no law (log 3). -/
opaque Config.randomByte : Nat → Byte

end Sys2Proof
end

