-- ==== Sys2Proof/Syntax.lean ====
section
/-! DEFINITION. The instructions: one constructor for each of the 34 rows of spec/opcode_table.json
(30_encoding.md R94), with the operand fields of R92 and R93. Each operand's type admits exactly
the values of its field, so every term is an instruction the encoding can spell (log 13). -/

namespace Sys2Proof

/-- The 34 instructions, in the order of the opcode map (R94). -/
inductive Instr
  /-- `00E0`, CLS (R261). -/
  | cls
  /-- `00EE`, RET (R153). -/
  | ret
  /-- `1nnn`, JP addr (R154). -/
  | jp (nnn : Addr12)
  /-- `2nnn`, CALL addr (R155). -/
  | call (nnn : Addr12)
  /-- `3xkk`, SE Vx, byte (R156). -/
  | seByte (x : Reg) (kk : Byte)
  /-- `4xkk`, SNE Vx, byte (R157). -/
  | sneByte (x : Reg) (kk : Byte)
  /-- `5xy0`, SE Vx, Vy (R158). -/
  | seReg (x y : Reg)
  /-- `6xkk`, LD Vx, byte (R181). -/
  | ldByte (x : Reg) (kk : Byte)
  /-- `7xkk`, ADD Vx, byte (R182). -/
  | addByte (x : Reg) (kk : Byte)
  /-- `8xy0`, LD Vx, Vy (R183). -/
  | ldReg (x y : Reg)
  /-- `8xy1`, OR Vx, Vy (R184). -/
  | orReg (x y : Reg)
  /-- `8xy2`, AND Vx, Vy (R185). -/
  | andReg (x y : Reg)
  /-- `8xy3`, XOR Vx, Vy (R186). -/
  | xorReg (x y : Reg)
  /-- `8xy4`, ADD Vx, Vy (R187). -/
  | addReg (x y : Reg)
  /-- `8xy5`, SUB Vx, Vy (R188). -/
  | sub (x y : Reg)
  /-- `8xy6`, SHR Vx, Vy (R189). -/
  | shr (x y : Reg)
  /-- `8xy7`, SUBN Vx, Vy (R190). -/
  | subn (x y : Reg)
  /-- `8xyE`, SHL Vx, Vy (R191). -/
  | shl (x y : Reg)
  /-- `9xy0`, SNE Vx, Vy (R159). -/
  | sneReg (x y : Reg)
  /-- `Annn`, LD I, addr (R281). -/
  | ldI (nnn : Addr12)
  /-- `Bnnn`, JP V0, addr (R160). -/
  | jpV0 (nnn : Addr12)
  /-- `Cxkk`, RND Vx, byte (R192). -/
  | rnd (x : Reg) (kk : Byte)
  /-- `Dxyn`, DRW Vx, Vy, nibble (R262); `n` is the count of sprite rows. -/
  | drw (x y : Reg) (n : Fin 16)
  /-- `Ex9E`, SKP Vx (R242). -/
  | skp (x : Reg)
  /-- `ExA1`, SKNP Vx (R243). -/
  | sknp (x : Reg)
  /-- `Fx07`, LD Vx, DT (R221). -/
  | ldVxDt (x : Reg)
  /-- `Fx0A`, LD Vx, K (R244). -/
  | ldVxK (x : Reg)
  /-- `Fx15`, LD DT, Vx (R222). -/
  | ldDtVx (x : Reg)
  /-- `Fx18`, LD ST, Vx (R223). -/
  | ldStVx (x : Reg)
  /-- `Fx1E`, ADD I, Vx (R282). -/
  | addIVx (x : Reg)
  /-- `Fx29`, LD F, Vx (R283). -/
  | ldFVx (x : Reg)
  /-- `Fx33`, LD B, Vx (R284). -/
  | ldBVx (x : Reg)
  /-- `Fx55`, LD [I], Vx (R285). -/
  | ldMemVx (x : Reg)
  /-- `Fx65`, LD Vx, [I] (R286). -/
  | ldVxMem (x : Reg)
  deriving DecidableEq, Repr

end Sys2Proof
end

