-- ==== Sys2Proof/WellFormed.lean ====
section
/-! DEFINITION. What is well-formed before the machine acts on it: an instruction word (30_encoding.md
R94), a program image (70_reset_and_hazards.md R341), a key code (44_keypad.md R240). A term of `Instr`
needs no check: each operand's type holds exactly the values its field can spell (log 13). -/

namespace Sys2Proof

/-- One row of spec/opcode_table.json: a word `w` is of the row iff `w &&& mask = value`. -/
structure OpcodeRow where
  mask  : Word
  value : Word
  deriving DecidableEq, Repr

/-- The word has the row's fixed bits. -/
def OpcodeRow.accepts (r : OpcodeRow) (w : Word) : Bool := w &&& r.mask = r.value

/-- The row of an instruction, from the table's "mask" and "match". -/
def opcodeRow : Instr → OpcodeRow
  | .cls => ⟨0xFFFF, 0x00E0⟩   -- 00E0
  | .ret => ⟨0xFFFF, 0x00EE⟩   -- 00EE
  | .jp _ => ⟨0xF000, 0x1000⟩   -- 1nnn
  | .call _ => ⟨0xF000, 0x2000⟩   -- 2nnn
  | .seByte _ _ => ⟨0xF000, 0x3000⟩   -- 3xkk
  | .sneByte _ _ => ⟨0xF000, 0x4000⟩   -- 4xkk
  | .seReg _ _ => ⟨0xF00F, 0x5000⟩   -- 5xy0
  | .ldByte _ _ => ⟨0xF000, 0x6000⟩   -- 6xkk
  | .addByte _ _ => ⟨0xF000, 0x7000⟩   -- 7xkk
  | .ldReg _ _ => ⟨0xF00F, 0x8000⟩   -- 8xy0
  | .orReg _ _ => ⟨0xF00F, 0x8001⟩   -- 8xy1
  | .andReg _ _ => ⟨0xF00F, 0x8002⟩   -- 8xy2
  | .xorReg _ _ => ⟨0xF00F, 0x8003⟩   -- 8xy3
  | .addReg _ _ => ⟨0xF00F, 0x8004⟩   -- 8xy4
  | .sub _ _ => ⟨0xF00F, 0x8005⟩   -- 8xy5
  | .shr _ _ => ⟨0xF00F, 0x8006⟩   -- 8xy6
  | .subn _ _ => ⟨0xF00F, 0x8007⟩   -- 8xy7
  | .shl _ _ => ⟨0xF00F, 0x800E⟩   -- 8xyE
  | .sneReg _ _ => ⟨0xF00F, 0x9000⟩   -- 9xy0
  | .ldI _ => ⟨0xF000, 0xA000⟩   -- Annn
  | .jpV0 _ => ⟨0xF000, 0xB000⟩   -- Bnnn
  | .rnd _ _ => ⟨0xF000, 0xC000⟩   -- Cxkk
  | .drw _ _ _ => ⟨0xF000, 0xD000⟩   -- Dxyn
  | .skp _ => ⟨0xF0FF, 0xE09E⟩   -- Ex9E
  | .sknp _ => ⟨0xF0FF, 0xE0A1⟩   -- ExA1
  | .ldVxDt _ => ⟨0xF0FF, 0xF007⟩   -- Fx07
  | .ldVxK _ => ⟨0xF0FF, 0xF00A⟩   -- Fx0A
  | .ldDtVx _ => ⟨0xF0FF, 0xF015⟩   -- Fx15
  | .ldStVx _ => ⟨0xF0FF, 0xF018⟩   -- Fx18
  | .addIVx _ => ⟨0xF0FF, 0xF01E⟩   -- Fx1E
  | .ldFVx _ => ⟨0xF0FF, 0xF029⟩   -- Fx29
  | .ldBVx _ => ⟨0xF0FF, 0xF033⟩   -- Fx33
  | .ldMemVx _ => ⟨0xF0FF, 0xF055⟩   -- Fx55
  | .ldVxMem _ => ⟨0xF0FF, 0xF065⟩   -- Fx65

/-- One instruction of each of the table's first rows, in its order. -/
def firstRowRepresentatives : List Instr :=
  [.cls, .ret, .jp 0, .call 0, .seByte 0 0, .sneByte 0 0, .seReg 0 0, .ldByte 0 0, .addByte 0 0,
   .ldReg 0 0, .orReg 0 0, .andReg 0 0, .xorReg 0 0, .addReg 0 0, .sub 0 0, .shr 0 0, .subn 0 0]

/-- One instruction of each of the table's other rows, in its order. -/
def lastRowRepresentatives : List Instr :=
  [.shl 0 0, .sneReg 0 0, .ldI 0, .jpV0 0, .rnd 0 0, .drw 0 0 0, .skp 0, .sknp 0, .ldVxDt 0,
   .ldVxK 0, .ldDtVx 0, .ldStVx 0, .addIVx 0, .ldFVx 0, .ldBVx 0, .ldMemVx 0, .ldVxMem 0]

/-- One instruction of every row, in the table's order. -/
def rowRepresentatives : List Instr := firstRowRepresentatives ++ lastRowRepresentatives

/-- The 34 rows of the opcode table. -/
def opcodeRows : List OpcodeRow := rowRepresentatives.map opcodeRow

/-- "A word is an instruction iff it matches one of the 34 patterns below" (R94). -/
def wellFormedWord (w : Word) : Bool := opcodeRows.any (·.accepts w)

/-- The room for a program, from 0x200 to 0xFFF (R342). -/
abbrev imageRoom : Nat := 3584

/-- A program image that fits the room (R341). -/
def wellFormedImage (image : List Byte) : Bool := image.length ≤ imageRoom

/-- A key code the interface admits: 0..15 (R140, R240). -/
def wellFormedKeyCode (code : Nat) : Bool := code < 16

end Sys2Proof
end

