-- ==== Sys2Proof/Decode.lean ====
section
/-! DEFINITION. Decoding a word, total, and the encoder beside it (30_encoding.md R90 to R102), with
the byte order of an instruction (20_memory.md R67). -/

namespace Sys2Proof

/-- Why bytes are no instruction. -/
inductive Reject
  /-- The word matches none of the 34 patterns: `Unknown` of R95, an illegal word of R101. -/
  | unknown (w : Word)
  /-- Fewer than two bytes are left, and every instruction is exactly two (R90). -/
  | truncated
  deriving DecidableEq, Repr

/-! ### Fields (R92) -/

/-- `op = w[15:12]`, the family (R91). -/
def opField (w : Word) : BitVec 4 := w.extractLsb' 12 4

/-- `x = w[11:8]`. -/
def xField (w : Word) : Reg := (w.extractLsb' 8 4).toFin

/-- `y = w[7:4]`. -/
def yField (w : Word) : Reg := (w.extractLsb' 4 4).toFin

/-- `n = w[3:0]`. -/
def nField (w : Word) : Fin 16 := (w.extractLsb' 0 4).toFin

/-- `kk = w[7:0]`. -/
def kkField (w : Word) : Byte := w.extractLsb' 0 8

/-- `nnn = w[11:0]`. -/
def nnnField (w : Word) : Addr12 := w.extractLsb' 0 12

/-! ### Decode (R95) -/

/-- Family 0x8 by its function nibble; 8 to D and F are `Unknown` (R98). -/
def decodeAlu (w : Word) : Except Reject Instr :=
  match (nField w).val with
  | 0x0 => .ok (.ldReg (xField w) (yField w))
  | 0x1 => .ok (.orReg (xField w) (yField w))
  | 0x2 => .ok (.andReg (xField w) (yField w))
  | 0x3 => .ok (.xorReg (xField w) (yField w))
  | 0x4 => .ok (.addReg (xField w) (yField w))
  | 0x5 => .ok (.sub (xField w) (yField w))
  | 0x6 => .ok (.shr (xField w) (yField w))
  | 0x7 => .ok (.subn (xField w) (yField w))
  | 0xE => .ok (.shl (xField w) (yField w))
  | _ => .error (.unknown w)

/-- Family 0xF by its low byte; only nine values are instructions (R100). -/
def decodeMisc (w : Word) : Except Reject Instr :=
  match (kkField w).toNat with
  | 0x07 => .ok (.ldVxDt (xField w))
  | 0x0A => .ok (.ldVxK (xField w))
  | 0x15 => .ok (.ldDtVx (xField w))
  | 0x18 => .ok (.ldStVx (xField w))
  | 0x1E => .ok (.addIVx (xField w))
  | 0x29 => .ok (.ldFVx (xField w))
  | 0x33 => .ok (.ldBVx (xField w))
  | 0x55 => .ok (.ldMemVx (xField w))
  | 0x65 => .ok (.ldVxMem (xField w))
  | _ => .error (.unknown w)

/-- The instruction a word spells, or `Unknown`; it reads nothing but the word (R95). -/
def decode (w : Word) : Except Reject Instr :=
  match (opField w).toNat with
  | 0x0 => if w = 0x00E0 then .ok .cls else if w = 0x00EE then .ok .ret else .error (.unknown w)
  | 0x1 => .ok (.jp (nnnField w))
  | 0x2 => .ok (.call (nnnField w))
  | 0x3 => .ok (.seByte (xField w) (kkField w))
  | 0x4 => .ok (.sneByte (xField w) (kkField w))
  | 0x5 => if nField w = 0 then .ok (.seReg (xField w) (yField w)) else .error (.unknown w)
  | 0x6 => .ok (.ldByte (xField w) (kkField w))
  | 0x7 => .ok (.addByte (xField w) (kkField w))
  | 0x8 => decodeAlu w
  | 0x9 => if nField w = 0 then .ok (.sneReg (xField w) (yField w)) else .error (.unknown w)
  | 0xA => .ok (.ldI (nnnField w))
  | 0xB => .ok (.jpV0 (nnnField w))
  | 0xC => .ok (.rnd (xField w) (kkField w))
  | 0xD => .ok (.drw (xField w) (yField w) (nField w))
  | 0xE =>
    if kkField w = 0x9E then .ok (.skp (xField w))
    else if kkField w = 0xA1 then .ok (.sknp (xField w))
    else .error (.unknown w)
  | 0xF => decodeMisc w
  | _ => .error (.unknown w)

/-! ### Byte order (R67) -/

/-- A word as the memory holds it: bits 15..8 at the lower address. -/
def wordBytes (w : Word) : List Byte := [w.extractLsb' 8 8, w.extractLsb' 0 8]

/-- The word of two bytes, the one at the lower address in bits 15..8. -/
def wordOfBytes (hi lo : Byte) : Word := hi ++ lo

/-- The instruction at the head of any bytes, with the bytes after it; it consumes exactly two (R90). -/
def decodeBytes : List Byte → Except Reject (Instr × List Byte)
  | hi :: lo :: rest => (decode (wordOfBytes hi lo)).map (·, rest)
  | _ => .error .truncated

/-! ### Encode (R91, R94) -/

/-- A word of four nibbles, the first in bits 15..12. -/
def nibbles (op a b c : BitVec 4) : Word := op ++ a ++ b ++ c

/-- A register number or row count as the four bits of its field (R92). -/
def nibble (x : Fin 16) : BitVec 4 := BitVec.ofFin x

/-- Format `NNN` (R91). -/
def encodeNnn (op : BitVec 4) (nnn : Addr12) : Word := op ++ nnn

/-- Format `XKK`, and `XS8` with its fixed low byte (R91). -/
def encodeXkk (op : BitVec 4) (x : Reg) (kk : Byte) : Word := op ++ nibble x ++ kk

/-- Formats `XYS` and `XYN` (R91). -/
def encodeXyn (op : BitVec 4) (x y : Reg) (n : Fin 16) : Word :=
  nibbles op (nibble x) (nibble y) (nibble n)

/-- The word of an instruction, from the patterns of R94. -/
def encode : Instr → Word
  | .cls => nibbles 0x0 0x0 0xE 0x0
  | .ret => nibbles 0x0 0x0 0xE 0xE
  | .jp nnn => encodeNnn 0x1 nnn
  | .call nnn => encodeNnn 0x2 nnn
  | .seByte x kk => encodeXkk 0x3 x kk
  | .sneByte x kk => encodeXkk 0x4 x kk
  | .seReg x y => encodeXyn 0x5 x y 0x0
  | .ldByte x kk => encodeXkk 0x6 x kk
  | .addByte x kk => encodeXkk 0x7 x kk
  | .ldReg x y => encodeXyn 0x8 x y 0x0
  | .orReg x y => encodeXyn 0x8 x y 0x1
  | .andReg x y => encodeXyn 0x8 x y 0x2
  | .xorReg x y => encodeXyn 0x8 x y 0x3
  | .addReg x y => encodeXyn 0x8 x y 0x4
  | .sub x y => encodeXyn 0x8 x y 0x5
  | .shr x y => encodeXyn 0x8 x y 0x6
  | .subn x y => encodeXyn 0x8 x y 0x7
  | .shl x y => encodeXyn 0x8 x y 0xE
  | .sneReg x y => encodeXyn 0x9 x y 0x0
  | .ldI nnn => encodeNnn 0xA nnn
  | .jpV0 nnn => encodeNnn 0xB nnn
  | .rnd x kk => encodeXkk 0xC x kk
  | .drw x y n => encodeXyn 0xD x y n
  | .skp x => encodeXkk 0xE x 0x9E
  | .sknp x => encodeXkk 0xE x 0xA1
  | .ldVxDt x => encodeXkk 0xF x 0x07
  | .ldVxK x => encodeXkk 0xF x 0x0A
  | .ldDtVx x => encodeXkk 0xF x 0x15
  | .ldStVx x => encodeXkk 0xF x 0x18
  | .addIVx x => encodeXkk 0xF x 0x1E
  | .ldFVx x => encodeXkk 0xF x 0x29
  | .ldBVx x => encodeXkk 0xF x 0x33
  | .ldMemVx x => encodeXkk 0xF x 0x55
  | .ldVxMem x => encodeXkk 0xF x 0x65

/-! ### The opcode table's numbering -/

/-- The word whose low `nbits` bits are those of `w`, every bit above them 0 (log 16). -/
def tableWord (nbits w : Nat) : Word := BitVec.ofNat 16 (w % 2 ^ nbits)

/-- What the decoder reads from a table row's word, laid out as the hardware stores it (log 16):
no instruction of the CORE is longer than 16 bits (R90). -/
def decodeTableWord (nbits w : Nat) : Option Instr :=
  if 16 < nbits then none
  else
    match decodeBytes (wordBytes (tableWord nbits w)) with
    | .ok (i, _) => some i
    | .error _ => none

end Sys2Proof
end

