-- ==== Sys2Proof/Machine/State.lean ====
section
/-! DEFINITION. The state of the CORE (10_state.md R20), its reset value (R37), and why a step can stop. -/

namespace Sys2Proof.Machine

/-- The eight fault kinds (60_exceptions.md R310). -/
inductive FaultKind
  /-- The fetched word is no instruction (R128). -/
  | unknownInstruction
  /-- `2nnn` at depth 16 (R155). -/
  | stackOverflow
  /-- `00EE` at depth 0 (R153). -/
  | stackUnderflow
  /-- A fetch at an odd `PC` (R124). -/
  | misalignedFetch
  /-- A fetch at an even `PC` above 0xFFE (R125). -/
  | fetchOutOfRange
  /-- A data access that passes 0xFFF (R65). -/
  | dataOutOfRange
  /-- A store below 0x050 (R64). -/
  | protectedWrite
  /-- `Ex9E` or `ExA1` with `V[x] > 15` (R242, R243). -/
  | keyIndexOutOfRange
  deriving DecidableEq, Repr

/-- The fault record `(kind, opcode, pc)`; `opcode` is `none` for the two fetch faults (R34). -/
structure FaultRecord where
  kind   : FaultKind
  opcode : Option Word
  pc     : Word
  deriving DecidableEq, Repr

/-- The cells of `mem` that differ from what an unlisted address reads as, addresses rising
(`Memory.wf` in Machine/Ops.lean; log 6). -/
abbrev Memory := List Host.Cell

/-- The framebuffer: 32 rows of 64 one-bit cells; `fb[px, py]` is cell `px` of row `py` (R32, log 15). -/
abbrev Framebuffer := Vector (Vector Bool 64) 32

/-- Every field of R20, and the model's own `draws`. -/
structure State where
  /-- `mem` (R20, R60). -/
  mem : Memory
  /-- `V[0..15]`; `VF` is `V[15]` (R21, R22). -/
  v : Vector Byte 16
  /-- `I` (R25). -/
  i : Word
  /-- `PC` (R23). -/
  pc : Word
  /-- `stack`, its last element the top; `depth` is its length (R26). -/
  stack : List Word
  /-- `DT` (R27). -/
  dt : Byte
  /-- `ST` (R27). -/
  st : Byte
  /-- `key[0..15]`, true while the key is down (R29). -/
  key : Vector Bool 16
  /-- `prevKey[0..15]`, the snapshot `Fx0A` takes (R30). -/
  prevKey : Vector Bool 16
  /-- `waitingForKey` (R31). -/
  waitingForKey : Bool
  /-- `fb` (R32). -/
  fb : Framebuffer
  /-- `stopped` (R33). -/
  stopped : Bool
  /-- `fault` (R34). -/
  fault : Option FaultRecord
  /-- The model's own: how many `Cxkk` have run, which picks the next free byte (R8, log 3). -/
  draws : Nat
  deriving DecidableEq, Repr

/-- The state at power-on (R37, R340): memory as the font and zeros (nothing listed), `PC` at 0x200,
everything else zero. `draws := 0` is the model's own DESIGN CHOICE (log 3). -/
def State.reset : State where
  mem := []
  v := Vector.replicate 16 0
  i := 0
  pc := 0x200
  stack := []
  dt := 0
  st := 0
  key := Vector.replicate 16 false
  prevKey := Vector.replicate 16 false
  waitingForKey := false
  fb := Vector.replicate 32 (Vector.replicate 64 false)
  stopped := false
  fault := none
  draws := 0

/-- Why the machine would stop outside its own state. No constructor: every fault of the spec latches
`stopped` and records itself in `fault` (R313), which is a next state, and the spec knows no other
way to stop (log 4). Safe: nothing is stopped that the hardware continues. -/
inductive Fault
  deriving DecidableEq, Repr

/-- Why something has no meaning in the model. -/
inductive Refusal
  /-- Raised by an arm of `exec` whose instruction has no meaning yet; no arm is left so. Safe: the
  model stops where the hardware goes on. -/
  | notModelled (mnemonic : String)
  /-- Raised by `hostOp` for `setKeyState` with a code outside 0..15, which is not a move of the
  interface (40_dispatch.md R140, log 10). Safe: the model has no transition there. -/
  | keyCodeOutOfRange (code : Nat)
  deriving DecidableEq, Repr

/-- What a meaning, a step or a host operation answers. -/
abbrev Result := Host.Outcome State Fault Refusal

/-- What the host sees (R141): `key`, `prevKey` and `waitingForKey` are not in it. -/
structure Snapshot where
  v : Vector Byte 16
  pc : Word
  i : Word
  stack : List Word
  dt : Byte
  st : Byte
  mem : Memory
  fb : Framebuffer
  stopped : Bool
  fault : Option FaultRecord
  deriving DecidableEq, Repr

/-- The host operations (R132). `setKeyState` takes the code as the host sends it, so that one outside
0..15 can be refused; `loadProgram none` is a read failure (R342). -/
inductive HostOp
  | step
  | tick
  | setKeyState (code : Nat) (down : Bool)
  | loadProgram (image : Option (List Byte))
  | stop
  | snapshot
  deriving DecidableEq, Repr

end Sys2Proof.Machine
end

