-- ==== Sys2Proof/Machine/Ops.lean ====
section
/-! DEFINITION. The named operations over memory, registers, framebuffer and status: every meaning, the
fetch and the host operations go through them. Taking a fault is here too (60_exceptions.md R313). -/

namespace Sys2Proof.Machine

/-! ### Memory (20_memory.md) -/

/-- The size of the address space: addresses 0x000..0xFFF (R60). -/
abbrev memSize : Nat := 0x1000

/-- Where a program is loaded and the reset entry point (R63, R340). -/
abbrev programBase : Nat := 0x200

/-- What an address reads as that nothing has written: the font in its first 80 bytes, zero elsewhere
(R37, R61). No access of the machine reaches past 0xFFF (R66, log 6). -/
def Memory.unlisted (a : Nat) : Byte :=
  if h : a < Config.fontBytes then Config.font[a] else 0

/-- `MemRead(a, 1)` (R66). -/
def Memory.read : Memory → Nat → Byte
  | [], a => Memory.unlisted a
  | (k, b) :: rest, a => if a = k then b else Memory.read rest a

/-- `MemWrite(a, 1, b)` (R66), keeping the canonical form: addresses rising, and no cell that holds
what its address would read as unlisted. -/
def Memory.write : Memory → Nat → Byte → Memory
  | [], a, b => if b = Memory.unlisted a then [] else [(a, b)]
  | (k, c) :: rest, a, b =>
    if a < k then (if b = Memory.unlisted a then (k, c) :: rest else (a, b) :: (k, c) :: rest)
    else if a = k then (if b = Memory.unlisted a then rest else (a, b) :: rest)
    else (k, c) :: Memory.write rest a b

/-- Stores bytes at ascending addresses from `a` (R69). -/
def Memory.store (m : Memory) (a : Nat) : List Byte → Memory
  | [] => m
  | b :: bs => Memory.store (m.write a b) (a + 1) bs

/-- Reads `n` bytes at ascending addresses from `a` (R69). -/
def Memory.load (m : Memory) (a n : Nat) : List Byte :=
  (List.range n).map fun k => m.read (a + k)

/-- The canonical form from the cells at or above `lo` on (log 6). -/
def Memory.wfFrom (lo : Nat) : Memory → Bool
  | [] => true
  | (k, b) :: rest =>
    decide (lo ≤ k) && decide (k < memSize) && decide (b ≠ Memory.unlisted k) && Memory.wfFrom (k + 1) rest

/-- The canonical form: addresses strictly rising, each below 0x1000, no cell equal to what its address
reads as unlisted. Equal memories are then equal lists (log 6). -/
def Memory.wf (m : Memory) : Bool := Memory.wfFrom 0 m

/-- The range check of R65: an access of at least one byte must end within the store, without wrap. -/
def rangeFault (a len : Nat) : Option FaultKind :=
  if 0 < len ∧ memSize < a + len then some .dataOutOfRange else none

/-- The checks of a store: the range first, then the protection of the font (R64, R280). -/
def storeFault (a len : Nat) : Option FaultKind :=
  match rangeFault a len with
  | some kind => some kind
  | none => if a < Config.fontBytes then some .protectedWrite else none

/-! ### Registers (10_state.md) -/

/-- `V[x]` (R21). -/
def State.readV (s : State) (x : Reg) : Byte := s.v.get x

/-- `V[x] <- b` (R21); `x = 0xF` writes `VF` like any other (R22). -/
def State.writeV (s : State) (x : Reg) (b : Byte) : State := { s with v := s.v.set x b }

/-- Writes bytes into ascending registers from number `k` (R286). -/
def writeRegs (v : Vector Byte 16) (k : Nat) : List Byte → Vector Byte 16
  | [] => v
  | b :: bs => writeRegs (v.setIfInBounds k b) (k + 1) bs

/-- `V[k] <- bytes[k]` for the registers `V0` up to the last byte's (R286). -/
def State.writeBlock (s : State) (bytes : List Byte) : State := { s with v := writeRegs s.v 0 bytes }

/-- `I <- a` (R25). -/
def State.writeI (s : State) (a : Word) : State := { s with i := a }

/-- `PC <- target`, unchecked (R24, R152). -/
def State.jump (s : State) (target : Word) : State := { s with pc := target }

/-- `advance(k)`: `PC <- (PC + k) mod 2^16` (R151). -/
def State.advance (s : State) (k : Word) : State := { s with pc := s.pc + k }

/-- `skip_if(c)` (R151). -/
def State.skipIf (s : State) (c : Bool) : State := if c then s.advance 4 else s.advance 2

/-- `stack <- st` (R26). -/
def State.writeStack (s : State) (st : List Word) : State := { s with stack := st }

/-- `DT <- b` (R27). -/
def State.writeDt (s : State) (b : Byte) : State := { s with dt := b }

/-- `ST <- b` (R27). -/
def State.writeSt (s : State) (b : Byte) : State := { s with st := b }

/-- `mem[a ..] <- bytes` (R66, R69). -/
def State.writeMem (s : State) (a : Nat) (bytes : List Byte) : State :=
  { s with mem := s.mem.store a bytes }

/-- `fb <- f` (R32). -/
def State.writeFb (s : State) (f : Framebuffer) : State := { s with fb := f }

/-- `prevKey <- key`, all 16 entries, and the machine waits (R241, R244). -/
def State.snapshotKeys (s : State) : State := { s with prevKey := s.key, waitingForKey := true }

/-- The wait ends; `prevKey` keeps its value (R244, decision D22). -/
def State.endWait (s : State) : State := { s with waitingForKey := false }

/-- One more byte of RANDOM is used up (R8, log 3). -/
def State.countDraw (s : State) : State := { s with draws := s.draws + 1 }

/-- `draw_random()`: the free byte of this execution (R8, R11, log 3). -/
def State.randomByte (s : State) : Byte := Config.randomByte s.draws

/-! ### Framebuffer (45_display.md) -/

/-- `fb[px, py]` (R32, R260). -/
def Framebuffer.pixel (f : Framebuffer) (px : Fin 64) (py : Fin 32) : Bool := (f.get py).get px

/-- `fb[px, py] <- fb[px, py] ^ 1` (R262). -/
def Framebuffer.toggle (f : Framebuffer) (px : Fin 64) (py : Fin 32) : Framebuffer :=
  f.set py ((f.get py).set px (!f.pixel px py))

/-- Every pixel 0 (R261). -/
def Framebuffer.clear : Framebuffer := Vector.replicate 32 (Vector.replicate 64 false)

/-- The 2048 cells in the linear order `index = py * 64 + px` (R32, decision D19). -/
def Framebuffer.cells (f : Framebuffer) : List Bool := f.toList.flatMap (·.toList)

/-! ### Faults (60_exceptions.md) -/

/-- The numeric codes of R310. -/
def FaultKind.code : FaultKind → Nat
  | .unknownInstruction => 1
  | .stackOverflow => 2
  | .stackUnderflow => 3
  | .misalignedFetch => 4
  | .fetchOutOfRange => 5
  | .dataOutOfRange => 6
  | .protectedWrite => 7
  | .keyIndexOutOfRange => 8

/-- `raise Fault(kind)` (R313): the record is written and `stopped` latched, and nothing else changes
(R314); `PC` stays on the faulting instruction. There is no handler and no return (R316): only a
successful `loadProgram` (Machine/HostOps.lean) restarts the machine. -/
def State.takeFault (s : State) (kind : FaultKind) (opcode : Option Word) : State :=
  { s with fault := some { kind := kind, opcode := opcode, pc := s.pc }, stopped := true }

/-- The fault of instruction `i` if its check names one, else its effect: every check comes before the
first write (R13, R314). The recorded opcode is the word of `i` (log 5). -/
def State.faultOr (s : State) (check : Option FaultKind) (i : Instr) (effect : State) : State :=
  match check with
  | some kind => s.takeFault kind (some (encode i))
  | none => effect

/-! ### Fetch (40_dispatch.md) -/

/-- The checks before a fetch, in their order: an odd `PC` (R124), then one above 0xFFE (R125, R315). -/
def State.fetchFault (s : State) : Option FaultKind :=
  if s.pc.getLsbD 0 then some .misalignedFetch
  else if 0xFFE < s.pc.toNat then some .fetchOutOfRange
  else none

/-- `w = mem[PC] ++ mem[PC+1]` (R126, R67). -/
def State.fetchWord (s : State) : Word :=
  wordOfBytes (s.mem.read s.pc.toNat) (s.mem.read (s.pc.toNat + 1))

/-- The state made ready to fetch, for `State.withFetchWord` only: one that is stopped or whose `PC`
cannot be fetched from is restarted at 0x200, any other is left as it is (log 8). -/
def State.readyToFetch (s : State) : State :=
  if s.stopped || s.fetchFault.isSome then
    { s with stopped := false, fault := none,
             pc := if s.fetchFault.isSome then BitVec.ofNat 16 programBase else s.pc }
  else s

end Sys2Proof.Machine
end

