-- ==== Sys2Proof/Machine/Operands.lean ====
section
/-! DEFINITION. The operand forms (30_encoding.md R92, R93) and the values computed from them. -/

namespace Sys2Proof.Machine

/-- `zext_16(nnn)` (R92). -/
def addr16 (nnn : Addr12) : Word := nnn.setWidth 16

/-- The source operand of `8xy6` and `8xyE` under one value of SHIFT_SOURCE (42_alu.md R194). -/
def shiftOperandOf (source : ShiftSource) (vx vy : Byte) : Byte :=
  match source with
  | .vy => vy
  | .vx => vx

/-- The source operand of `8xy6` and `8xyE` on this machine (R7, R194, log 2). -/
def shiftOperand (vx vy : Byte) : Byte := shiftOperandOf Config.shiftSource vx vy

/-- The count of registers that `Fx55` and `Fx65` move: `x + 1` (R92). -/
def blockSize (x : Reg) : Nat := x.val + 1

/-- `V[0] .. V[x]` in ascending order (46_index_memory.md R285). -/
def State.readBlock (s : State) (x : Reg) : List Byte := s.v.toList.take (blockSize x)

/-- `I` as a memory address, without a mask (R25, R65). -/
def State.dataAddr (s : State) : Nat := s.i.toNat

/-- The value of `I` after a block move: `(I + x + 1) mod 2^16` (R25, R285, R286). -/
def State.nextI (s : State) (x : Reg) : Word := BitVec.ofNat 16 (s.i.toNat + blockSize x)

/-- `5 * d` for the low nibble `d` of a register: where its glyph lies (R283). -/
def glyphAddr (b : Byte) : Word := BitVec.ofNat 16 (5 * (b &&& 0xF).toNat)

/-- The decimal digits of a byte: hundreds, tens, ones (R284). -/
def bcdDigits (b : Byte) : List Byte :=
  [BitVec.ofNat 8 (b.toNat / 100), BitVec.ofNat 8 (b.toNat / 10 % 10), BitVec.ofNat 8 (b.toNat % 10)]

/-- The key a register names, if it is one of the 16 (44_keypad.md R242). -/
def keyOf (b : Byte) : Option Key := if h : b.toNat < 16 then some ⟨b.toNat, h⟩ else none

/-- The first key, scanning 0..15, that was up in `prevKey` and is down in `key` (R244). -/
def State.firstEdge (s : State) : Option Key :=
  (List.finRange 16).find? fun k => !s.prevKey.get k && s.key.get k

end Sys2Proof.Machine
end

