-- ==== Sys2Proof/Machine/Alu.lean ====
section
/-! DEFINITION. Register and ALU instructions (42_alu.md). Operands are read before the first write, and
the writes follow the order of the spec's pseudocode (R180): that order decides `VF` when `x = 0xF`. -/

namespace Sys2Proof.Machine

/-- `V[x]` takes a result, no flag is written, and `PC` advances (R181 to R186). -/
def State.setResult (s : State) (x : Reg) (b : Byte) : State := (s.writeV x b).advance 2

/-- `VF` takes the flag, THEN `V[x]` the result (R188 to R191). -/
def State.flagThenResult (s : State) (x : Reg) (flag b : Byte) : State :=
  ((s.writeV flagReg flag).writeV x b).advance 2

/-- `V[x]` takes the result, THEN `VF` the flag (R187). -/
def State.resultThenFlag (s : State) (x : Reg) (b flag : Byte) : State :=
  ((s.writeV x b).writeV flagReg flag).advance 2

/-- `8xy6` on a shift source: bit 0 to `VF`, then the logical right shift to `V[x]` (R189). -/
def State.shiftRight (s : State) (x : Reg) (src : Byte) : State :=
  s.flagThenResult x (lowBitFlag src) (src >>> 1)

/-- `8xyE` on a shift source: bit 7 to `VF`, then the left shift to `V[x]` (R191). -/
def State.shiftLeft (s : State) (x : Reg) (src : Byte) : State :=
  s.flagThenResult x (highBitFlag src) (src <<< 1)

/-- `Cxkk` on a drawn byte (R192). -/
def State.maskRandom (s : State) (x : Reg) (kk r : Byte) : State :=
  (s.setResult x (r &&& kk)).countDraw

/-- `6xkk`, LD Vx, byte (R181). -/
def execLdByte (x : Reg) (kk : Byte) (s : State) : Result :=
  .next (s.setResult x kk)

/-- `7xkk`, ADD Vx, byte (R182): mod 256, no flag (90_conflicts.md C6). -/
def execAddByte (x : Reg) (kk : Byte) (s : State) : Result :=
  .next (s.setResult x (s.readV x + kk))

/-- `8xy0`, LD Vx, Vy (R183). -/
def execLdReg (x y : Reg) (s : State) : Result :=
  .next (s.setResult x (s.readV y))

/-- `8xy1`, OR Vx, Vy (R184). -/
def execOrReg (x y : Reg) (s : State) : Result :=
  .next (s.setResult x (s.readV x ||| s.readV y))

/-- `8xy2`, AND Vx, Vy (R185). -/
def execAndReg (x y : Reg) (s : State) : Result :=
  .next (s.setResult x (s.readV x &&& s.readV y))

/-- `8xy3`, XOR Vx, Vy (R186). -/
def execXorReg (x y : Reg) (s : State) : Result :=
  .next (s.setResult x (s.readV x ^^^ s.readV y))

/-- `8xy4`, ADD Vx, Vy (R187): the sum mod 256, then the carry. -/
def execAddReg (x y : Reg) (s : State) : Result :=
  .next (s.resultThenFlag x (s.readV x + s.readV y) (carryFlag (s.readV x) (s.readV y)))

/-- `8xy5`, SUB Vx, Vy (R188): the flag, then the difference mod 256. -/
def execSub (x y : Reg) (s : State) : Result :=
  .next (s.flagThenResult x (noBorrowFlag (s.readV x) (s.readV y)) (s.readV x - s.readV y))

/-- `8xy6`, SHR Vx, Vy (R189), its source chosen by SHIFT_SOURCE (R194). -/
def execShr (x y : Reg) (s : State) : Result :=
  .next (s.shiftRight x (shiftOperand (s.readV x) (s.readV y)))

/-- `8xy7`, SUBN Vx, Vy (R190): the flag, then the reverse difference mod 256. -/
def execSubn (x y : Reg) (s : State) : Result :=
  .next (s.flagThenResult x (noBorrowFlag (s.readV y) (s.readV x)) (s.readV y - s.readV x))

/-- `8xyE`, SHL Vx, Vy (R191), its source chosen by SHIFT_SOURCE (R194). -/
def execShl (x y : Reg) (s : State) : Result :=
  .next (s.shiftLeft x (shiftOperand (s.readV x) (s.readV y)))

/-- `Cxkk`, RND Vx, byte (R192): a free byte ANDed with the mask. -/
def execRnd (x : Reg) (kk : Byte) (s : State) : Result :=
  .next (s.maskRandom x kk s.randomByte)

end Sys2Proof.Machine
end

