-- ==== Sys2Proof/Machine/ControlFlow.lean ====
section
/-! DEFINITION. Jumps, call, return and the comparing skips (41_control_flow.md). -/

namespace Sys2Proof.Machine

/-- `00EE`, RET (R153): the popped address goes to `PC` as it is. -/
def execRet (s : State) : Result :=
  .next <| match s.stack.getLast? with
    | none => s.takeFault .stackUnderflow (some (encode .ret))
    | some t => (s.writeStack s.stack.dropLast).jump t

/-- `1nnn`, JP addr (R154). -/
def execJp (nnn : Addr12) (s : State) : Result :=
  .next (s.jump (addr16 nnn))

/-- `2nnn`, CALL addr (R155): the return address is `PC + 2`. -/
def execCall (nnn : Addr12) (s : State) : Result :=
  .next <| s.faultOr (if s.stack.length = 16 then some .stackOverflow else none) (.call nnn)
    ((s.writeStack (s.stack ++ [s.pc + 2])).jump (addr16 nnn))

/-- `3xkk`, SE Vx, byte (R156). -/
def execSeByte (x : Reg) (kk : Byte) (s : State) : Result :=
  .next (s.skipIf (s.readV x = kk))

/-- `4xkk`, SNE Vx, byte (R157). -/
def execSneByte (x : Reg) (kk : Byte) (s : State) : Result :=
  .next (s.skipIf (s.readV x ≠ kk))

/-- `5xy0`, SE Vx, Vy (R158). -/
def execSeReg (x y : Reg) (s : State) : Result :=
  .next (s.skipIf (s.readV x = s.readV y))

/-- `9xy0`, SNE Vx, Vy (R159). -/
def execSneReg (x y : Reg) (s : State) : Result :=
  .next (s.skipIf (s.readV x ≠ s.readV y))

/-- `Bnnn`, JP V0, addr (R160): the register is always `V0`. -/
def execJpV0 (nnn : Addr12) (s : State) : Result :=
  .next (s.jump (addr16 nnn + (s.readV 0).setWidth 16))

end Sys2Proof.Machine
end

