-- ==== Sys2Proof/Machine/Display.lean ====
section
/-! DEFINITION. Clearing the framebuffer and drawing a sprite (45_display.md). -/

namespace Sys2Proof.Machine

/-- A draw in progress: the framebuffer, and whether a pixel went from 1 to 0 so far (R262). -/
structure Drawing where
  fb : Framebuffer
  collided : Bool
  deriving DecidableEq, Repr

/-- One set sprite bit: the pixel is toggled, and a pixel that was 1 is a collision (R262). -/
def drawPixel (d : Drawing) (px : Fin 64) (py : Fin 32) : Drawing :=
  { fb := d.fb.toggle px py, collided := d.collided || d.fb.pixel px py }

/-- The screen column of column `col` of a sprite drawn at `vx`: it wraps mod 64 (R262). -/
def spriteColumn (vx : Byte) (col : Nat) : Fin 64 := Fin.ofNat 64 (vx.toNat + col)

/-- The screen row of row `row` of a sprite drawn at `vy`: it wraps mod 32 (R262, 90_conflicts.md C1). -/
def spriteRow (vy : Byte) (row : Nat) : Fin 32 := Fin.ofNat 32 (vy.toNat + row)

/-- One sprite row: bit `7 - col` of the byte is column `col`, the most significant bit leftmost (R260). -/
def drawRow (vx vy : Byte) (row : Nat) (b : Byte) (d : Drawing) : Drawing :=
  (List.range 8).foldl
    (fun d col => if b.getLsbD (7 - col) then drawPixel d (spriteColumn vx col) (spriteRow vy row) else d) d

/-- The sprite rows from number `row` on (R262). -/
def drawRows (vx vy : Byte) : Nat → List Byte → Drawing → Drawing
  | _, [], d => d
  | row, b :: bs, d => drawRows vx vy (row + 1) bs (drawRow vx vy row b d)

/-- A whole sprite on a framebuffer (R262). -/
def drawSprite (f : Framebuffer) (vx vy : Byte) (sprite : List Byte) : Drawing :=
  drawRows vx vy 0 sprite { fb := f, collided := false }

/-- The framebuffer, then `VF`, then `PC`, once a sprite is drawn (R262). -/
def State.showDrawing (s : State) (d : Drawing) : State :=
  ((s.writeFb d.fb).writeV flagReg (collisionFlag d.collided)).advance 2

/-- `00E0`, CLS (R261). -/
def execCls (s : State) : Result :=
  .next ((s.writeFb Framebuffer.clear).advance 2)

/-- `Dxyn`, DRW Vx, Vy, nibble (R262): the coordinates are read before `VF` is written; with `n = 0`
nothing is checked, read or drawn. -/
def execDrw (x y : Reg) (n : Fin 16) (s : State) : Result :=
  .next <| s.faultOr (rangeFault s.dataAddr n.val) (.drw x y n)
    (s.showDrawing (drawSprite s.fb (s.readV x) (s.readV y) (s.mem.load s.dataAddr n.val)))

end Sys2Proof.Machine
end

