-- ==== Sys2Proof/Machine/IndexMemory.lean ====
section
/-! DEFINITION. The index register and the memory instructions (46_index_memory.md). The whole range is
checked, then the protection, before the first byte moves (R280). -/

namespace Sys2Proof.Machine

/-- `Annn`, LD I, addr (R281). -/
def execLdI (nnn : Addr12) (s : State) : Result :=
  .next ((s.writeI (addr16 nnn)).advance 2)

/-- `Fx1E`, ADD I, Vx (R282): the sum mod 2^16, then the flag of the unbounded sum. -/
def execAddIVx (x : Reg) (s : State) : Result :=
  .next (((s.writeI (s.i + (s.readV x).setWidth 16)).writeV flagReg (indexFlag s.i (s.readV x))).advance 2)

/-- `Fx29`, LD F, Vx (R283). -/
def execLdFVx (x : Reg) (s : State) : Result :=
  .next ((s.writeI (glyphAddr (s.readV x))).advance 2)

/-- `Fx33`, LD B, Vx (R284): three digits at `I`; `I` stays. -/
def execLdBVx (x : Reg) (s : State) : Result :=
  .next <| s.faultOr (storeFault s.dataAddr 3) (.ldBVx x)
    ((s.writeMem s.dataAddr (bcdDigits (s.readV x))).advance 2)

/-- `Fx55`, LD [I], Vx (R285): `V0..Vx` at `I`, then `I` grows by `x + 1`. -/
def execLdMemVx (x : Reg) (s : State) : Result :=
  .next <| s.faultOr (storeFault s.dataAddr (blockSize x)) (.ldMemVx x)
    (((s.writeMem s.dataAddr (s.readBlock x)).writeI (s.nextI x)).advance 2)

/-- `Fx65`, LD Vx, [I] (R286): `V0..Vx` from `I`, then `I` grows by `x + 1`. -/
def execLdVxMem (x : Reg) (s : State) : Result :=
  .next <| s.faultOr (rangeFault s.dataAddr (blockSize x)) (.ldVxMem x)
    (((s.writeBlock (s.mem.load s.dataAddr (blockSize x))).writeI (s.nextI x)).advance 2)

end Sys2Proof.Machine
end

