-- ==== Sys2Proof/Machine/Keypad.lean ====
section
/-! DEFINITION. The key latch, the skips on a key's level, and the wait for a key (44_keypad.md). -/

namespace Sys2Proof.Machine

/-- `setKeyState(code, down)`: `key[code]` and nothing else, whatever `stopped` is (R240, R135). -/
def setKeyState (code : Key) (down : Bool) (s : State) : State :=
  { s with key := s.key.set code down }

/-- `Ex9E` and `ExA1`: the fault when the register names no key, else a skip when the key's level is
`down` (R242, R243). -/
def State.skipOnKey (s : State) (i : Instr) (b : Byte) (down : Bool) : State :=
  match keyOf b with
  | none => s.takeFault .keyIndexOutOfRange (some (encode i))
  | some k => s.skipIf (s.key.get k == down)

/-- `Ex9E`, SKP Vx (R242). -/
def execSkp (x : Reg) (s : State) : Result :=
  .next (s.skipOnKey (.skp x) (s.readV x) true)

/-- `ExA1`, SKNP Vx (R243). -/
def execSknp (x : Reg) (s : State) : Result :=
  .next (s.skipOnKey (.sknp x) (s.readV x) false)

/-- `Fx0A`, LD Vx, K (R244): entering the wait only takes the snapshot; waiting, the lowest key with a
down edge is captured and `PC` advances, or else the snapshot follows the keys and `PC` stays. -/
def execLdVxK (x : Reg) (s : State) : Result :=
  .next <|
    if s.waitingForKey then
      match s.firstEdge with
      | some k => ((s.writeV x (BitVec.ofNat 8 k.val)).endWait).advance 2
      | none => s.snapshotKeys
    else s.snapshotKeys

end Sys2Proof.Machine
end

