-- ==== Sys2Proof/Machine/Timers.lean ====
section
/-! DEFINITION. The two timers: `tick()` and the instructions that reach them (43_timers.md). -/

namespace Sys2Proof.Machine

/-- One tick of one timer: it loses `min(value, 60)` (R224). -/
def decay (t : Byte) : Byte := BitVec.ofNat 8 (t.toNat - min t.toNat 60)

/-- `tick()` (R224): both timers at once, whatever `stopped` and `waitingForKey` are (R134, R225). -/
def tick (s : State) : State := (s.writeDt (decay s.dt)).writeSt (decay s.st)

/-- `Fx07`, LD Vx, DT (R221). -/
def execLdVxDt (x : Reg) (s : State) : Result :=
  .next ((s.writeV x s.dt).advance 2)

/-- `Fx15`, LD DT, Vx (R222). -/
def execLdDtVx (x : Reg) (s : State) : Result :=
  .next ((s.writeDt (s.readV x)).advance 2)

/-- `Fx18`, LD ST, Vx (R223). -/
def execLdStVx (x : Reg) (s : State) : Result :=
  .next ((s.writeSt (s.readV x)).advance 2)

end Sys2Proof.Machine
end

