-- ==== Sys2Proof/Machine/Step.lean ====
section
/-! DEFINITION. `step()` (40_dispatch.md R122, R133): fetch, decode, execute. -/

namespace Sys2Proof.Machine

/-- One call of `step()` (R133): nothing when stopped (R122); the two fetch faults, which record no
opcode (R124, R125); the fault of an unknown word (R128); else the instruction (R129). -/
def step (s : State) : Host.Outcome State Fault Refusal :=
  if s.stopped then .next s
  else
    match s.fetchFault with
    | some kind => .next (s.takeFault kind none)
    | none =>
      match decode s.fetchWord with
      | .error _ => .next (s.takeFault .unknownInstruction (some s.fetchWord))
      | .ok i => exec i s

/-- `s` with a table row's word stored at `PC`, where the next step fetches it (log 7, log 8, log 16). -/
def State.withFetchWord (s : State) (nbits w : Nat) : State :=
  s.readyToFetch.writeMem s.readyToFetch.pc.toNat (wordBytes (tableWord nbits w))

end Sys2Proof.Machine
end

