-- ==== Sys2Proof/Machine/HostOps.lean ====
section
/-! DEFINITION. The host operations beside `step()` and the runs a SCHEDULE of them makes
(40_dispatch.md R132 to R141, 70_reset_and_hazards.md R341, R342). -/

namespace Sys2Proof.Machine

/-- `stop()` (R136): the latch and nothing else. -/
def stop (s : State) : State := { s with stopped := true }

/-- `snapshot()` (R141): a copy, and no change. -/
def snapshot (s : State) : Snapshot where
  v := s.v
  pc := s.pc
  i := s.i
  stack := s.stack
  dt := s.dt
  st := s.st
  mem := s.mem
  fb := s.fb
  stopped := s.stopped
  fault := s.fault

/-- The state a successful load leaves (R341): power-on with the image at 0x200; `key` is kept (decision
D14), and so is the model's own `draws` (log 3). -/
def State.loaded (s : State) (image : List Byte) : State :=
  { State.reset.writeMem programBase image with key := s.key, draws := s.draws }

/-- `loadProgram(bytes)` (R341, R342): `true` after a reset and load; `false` and no change when the
source cannot be read (`none`) or the image is longer than 3584 bytes. -/
def loadProgram (image : Option (List Byte)) (s : State) : Bool × State :=
  match image with
  | none => (false, s)
  | some bytes => if wellFormedImage bytes then (true, s.loaded bytes) else (false, s)

/-- One host operation (R132), an atomic transition (R121). A key code outside 0..15 is not a move and
is refused by name (R140, log 10). -/
def hostOp (op : HostOp) (s : State) : Host.Outcome State Fault Refusal :=
  match op with
  | .step => step s
  | .tick => .next (tick s)
  | .setKeyState code down =>
    if h : code < 16 then .next (setKeyState ⟨code, h⟩ down s) else .refused (.keyCodeOutOfRange code)
  | .loadProgram image => .next (loadProgram image s).2
  | .stop => .next (stop s)
  | .snapshot => .next s

/-- A SCHEDULE (R8, R121): host operations one after the other, in any order and number (log 9). -/
def runSchedule : List HostOp → State → Host.Outcome State Fault Refusal
  | [], s => .next s
  | op :: ops, s =>
    match hostOp op s with
    | .next t => runSchedule ops t
    | .fault r => .fault r
    | .refused r => .refused r

end Sys2Proof.Machine
end

