-- ==== Sys2Proof/Safety.lean ====
section
/-! DEFINITION. What a safe state and a finished run are, in the terms the claims use. -/

namespace Sys2Proof.Machine

/-- The font region holds FONT (10_state.md R38, point 2). -/
def State.fontIntact (s : State) : Prop :=
  ∀ a, (h : a < Config.fontBytes) → s.mem.read a = Config.font[a]

/-- The word at `PC` can be fetched and is an `Fx0A` (R38, point 3; 44_keypad.md R246). -/
def State.atKeyWait (s : State) : Prop :=
  s.fetchFault = none ∧ ∃ x, decode s.fetchWord = .ok (.ldVxK x)

/-- The invariants of R38, and the canonical form of the memory list (log 6). -/
structure State.Inv (s : State) : Prop where
  memWf : s.mem.wf = true
  depth : s.stack.length ≤ 16
  font : s.fontIntact
  waiting : s.waitingForKey = true → s.atKeyWait
  faulted : s.fault ≠ none → s.stopped = true

/-- Reached from power-on by host operations (R38). -/
def State.Reachable (s : State) : Prop := ∃ ops, runSchedule ops State.reset = .next s

/-- `step()` executes an instruction: the machine is not stopped, `PC` can be fetched from and the word
there decodes (40_dispatch.md R129, R133). -/
def State.Executes (s : State) (i : Instr) : Prop :=
  s.stopped = false ∧ s.fetchFault = none ∧ decode s.fetchWord = .ok i

/-- A run finished by a fault: case (a) of R139. -/
def State.Faulted (s : State) : Prop := s.stopped = true ∧ s.fault ≠ none

/-- A run finished by the host: case (b) of R139. -/
def State.StoppedByHost (s : State) : Prop := s.stopped = true ∧ s.fault = none

/-- A parked run: case (c) of R139, a jump to itself. DESIGN CHOICE (log 20): `PC` can be fetched from. R139's
condition alone admits an odd `PC` whose two bytes spell a jump to it, but there the next step takes
`MisalignedFetch` (R124), against R139's own "leaves every field unchanged". -/
def State.Parked (s : State) : Prop :=
  s.stopped = false ∧ s.waitingForKey = false ∧ s.fetchFault = none ∧
    ∃ nnn, s.fetchWord = encode (.jp nnn) ∧ addr16 nnn = s.pc

/-- The fault an instruction's own check is due to raise, by the table of 60_exceptions.md R310; a range
comes before a protection (R315). -/
def instrFaultDue (s : State) : Instr → Option FaultKind
  | .call _ => if s.stack.length = 16 then some .stackOverflow else none
  | .ret => if s.stack = [] then some .stackUnderflow else none
  | .skp x | .sknp x => if 15 < (s.readV x).toNat then some .keyIndexOutOfRange else none
  | .drw _ _ n => if 0 < n.val ∧ 0x1000 < s.i.toNat + n.val then some .dataOutOfRange else none
  | .ldVxMem x => if 0x1000 < s.i.toNat + (x.val + 1) then some .dataOutOfRange else none
  | .ldBVx _ =>
    if 0x1000 < s.i.toNat + 3 then some .dataOutOfRange
    else if s.i.toNat < 0x050 then some .protectedWrite else none
  | .ldMemVx x =>
    if 0x1000 < s.i.toNat + (x.val + 1) then some .dataOutOfRange
    else if s.i.toNat < 0x050 then some .protectedWrite else none
  | .cls | .jp _ | .seByte _ _ | .sneByte _ _ | .seReg _ _ | .ldByte _ _ | .addByte _ _ | .ldReg _ _
  | .orReg _ _ | .andReg _ _ | .xorReg _ _ | .addReg _ _ | .sub _ _ | .shr _ _ | .subn _ _ | .shl _ _
  | .sneReg _ _ | .ldI _ | .jpV0 _ | .rnd _ _ | .ldVxDt _ | .ldVxK _ | .ldDtVx _ | .ldStVx _
  | .addIVx _ | .ldFVx _ => none

/-- The fault a running machine's next step is due to raise: the first that applies in the order of R315. -/
def State.faultDue (s : State) : Option FaultKind :=
  if s.pc.toNat % 2 = 1 then some .misalignedFetch
  else if 0xFFE < s.pc.toNat then some .fetchOutOfRange
  else
    match decode s.fetchWord with
    | .error _ => some .unknownInstruction
    | .ok i => instrFaultDue s i

/-- The opcode a fault of this kind records: `none` for the two fetch faults, else the word (R310). -/
def FaultKind.opcodeOf (kind : FaultKind) (w : Word) : Option Word :=
  match kind with
  | .misalignedFetch | .fetchOutOfRange => none
  | .unknownInstruction | .stackOverflow | .stackUnderflow | .dataOutOfRange | .protectedWrite
  | .keyIndexOutOfRange => some w

/-- The general registers an instruction may write: its destination, `VF` where it writes a flag (10_state.md
R28), and `V0..Vx` for a block load (R21). -/
def writesRegister (r : Reg) : Instr → Prop
  | .ldByte x _ | .addByte x _ | .ldReg x _ | .orReg x _ | .andReg x _ | .xorReg x _ | .rnd x _
  | .ldVxDt x | .ldVxK x => r = x
  | .addReg x _ | .sub x _ | .shr x _ | .subn x _ | .shl x _ => r = x ∨ r = flagReg
  | .drw _ _ _ | .addIVx _ => r = flagReg
  | .ldVxMem x => r ≤ x
  | .cls | .ret | .jp _ | .call _ | .seByte _ _ | .sneByte _ _ | .seReg _ _ | .sneReg _ _ | .ldI _
  | .jpV0 _ | .skp _ | .sknp _ | .ldDtVx _ | .ldStVx _ | .ldFVx _ | .ldBVx _ | .ldMemVx _ => False

/-- Pixel (`px`, `py`) lies under a set bit of the `n`-row sprite at `I`, drawn at (`vx`, `vy`) with wrap
mod 64 across and mod 32 down (45_display.md R260, R262). -/
def State.spriteHits (s : State) (vx vy : Byte) (n : Nat) (px : Fin 64) (py : Fin 32) : Prop :=
  ∃ row col, row < n ∧ col < 8 ∧ px.val = (vx.toNat + col) % 64 ∧ py.val = (vy.toNat + row) % 32 ∧
    (s.mem.read (s.i.toNat + row)).getLsbD (7 - col) = true

end Sys2Proof.Machine
end

