-- ==== Sys2Proof/Certificates/Slice0/Obligations.lean ====
section
/-! DEFINITION. The statements for the provers. `t = { s with f := t.f, … }` is a frame: every field of the
state not named on its right is unchanged. -/

open Sys2Proof Sys2Proof.Machine

/-! ### Encoding (30_encoding.md) -/

/-- Words written out from the patterns of R94 decode to the instructions they stand for; a few illegal
ones do not decode. -/
def Obligations.DecodeReadsTheSpecWords : Prop :=
  decode 0x00E0 = .ok .cls ∧ decode 0x00EE = .ok .ret ∧ decode 0x1228 = .ok (.jp 0x228) ∧
  decode 0x3F01 = .ok (.seByte 0xF 0x01) ∧ decode 0x81F4 = .ok (.addReg 0x1 0xF) ∧
  decode 0x8F2E = .ok (.shl 0xF 0x2) ∧ decode 0xBFFE = .ok (.jpV0 0xFFE) ∧
  decode 0xD015 = .ok (.drw 0x0 0x1 5) ∧ decode 0xE1A1 = .ok (.sknp 0x1) ∧
  decode 0xFF0A = .ok (.ldVxK 0xF) ∧ decode 0xF518 = .ok (.ldStVx 0x5) ∧
  decode 0xF265 = .ok (.ldVxMem 0x2) ∧
  decode 0x0000 = .error (.unknown 0x0000) ∧ decode 0x5121 = .error (.unknown 0x5121) ∧
  decode 0x812F = .error (.unknown 0x812F) ∧ decode 0xF1FF = .error (.unknown 0xF1FF)

/-- Decoding an encoded instruction gives it back, every operand at every value. -/
def Obligations.DecodeOfEncodeIsTheInstruction : Prop :=
  ∀ i : Instr, decode (encode i) = .ok i

/-- R102: no bit of an instruction word is ignored, so the word can be had back from the instruction. -/
def Obligations.EncodeOfDecodeIsTheWord : Prop :=
  ∀ (w : Word) (i : Instr), decode w = .ok i → encode i = w

/-- R94: a word is an instruction iff it matches one of the 34 rows, and it decodes to its row's one. -/
def Obligations.DecodeAcceptsExactlyTheTable : Prop :=
  (∀ w : Word, (∃ i, decode w = .ok i) ↔ wellFormedWord w = true) ∧
  ∀ (w : Word) (i : Instr), decode w = .ok i → (opcodeRow i).accepts w = true

/-- R96 to R100: which words of each family are `Unknown`. -/
def Obligations.UnknownWordsOfEachFamily : Prop :=
  ∀ w : Word, (∃ e, decode w = .error e) ↔
    (w.toNat / 0x1000 = 0x0 ∧ w.toNat ≠ 0x00E0 ∧ w.toNat ≠ 0x00EE) ∨
    ((w.toNat / 0x1000 = 0x5 ∨ w.toNat / 0x1000 = 0x9) ∧ w.toNat % 0x10 ≠ 0) ∨
    (w.toNat / 0x1000 = 0x8 ∧ w.toNat % 0x10 ∈ [0x8, 0x9, 0xA, 0xB, 0xC, 0xD, 0xF]) ∨
    (w.toNat / 0x1000 = 0xE ∧ w.toNat % 0x100 ≠ 0x9E ∧ w.toNat % 0x100 ≠ 0xA1) ∨
    (w.toNat / 0x1000 = 0xF ∧
      w.toNat % 0x100 ∉ [0x07, 0x0A, 0x15, 0x18, 0x1E, 0x29, 0x33, 0x55, 0x65])

/-! ### The step and its faults (40_dispatch.md, 60_exceptions.md) -/

/-- R133, last branch: a running machine whose fetched word decodes runs exactly that instruction. -/
def Obligations.StepRunsTheDecodedInstruction : Prop :=
  ∀ (s : State) (i : Instr), s.stopped = false → s.pc.toNat % 2 = 0 → s.pc.toNat ≤ 0xFFE →
    decode (s.mem.read s.pc.toNat ++ s.mem.read (s.pc.toNat + 1)) = .ok i → step s = exec i s

/-- R122, R124, R128: what a step does when no instruction executes. -/
def Obligations.StepWhenNothingExecutes : Prop :=
  ∀ s : State,
    (s.stopped = true → step s = .next s) ∧
    (s.stopped = false → s.pc.toNat % 2 = 1 →
      step s = .next { s with fault := some ⟨.misalignedFetch, none, s.pc⟩, stopped := true }) ∧
    (s.stopped = false → s.pc.toNat % 2 = 0 → 0xFFE < s.pc.toNat →
      step s = .next { s with fault := some ⟨.fetchOutOfRange, none, s.pc⟩, stopped := true }) ∧
    (s.stopped = false → s.pc.toNat % 2 = 0 → s.pc.toNat ≤ 0xFFE →
      ∀ (w : Word) (e : Reject), w = s.mem.read s.pc.toNat ++ s.mem.read (s.pc.toNat + 1) → decode w = .error e →
        step s = .next { s with fault := some ⟨.unknownInstruction, some w, s.pc⟩, stopped := true })

/-- No step and no instruction, in any state, leaves the machine without a next state: every fault of the
spec is a state of the machine. -/
def Obligations.StepAlwaysAnswersANextState : Prop :=
  (∀ s : State, ∃ t, step s = .next t) ∧ ∀ (i : Instr) (s : State), ∃ t, exec i s = .next t

/-- R313, R314: a step that stops a running machine changes `stopped` and `fault` and nothing else; the
record holds the kind, the fetched word (none for the two fetch faults) and the `PC` before the step. -/
def Obligations.FaultsArePrecise : Prop :=
  ∀ s t : State, s.stopped = false → step s = .next t → t.stopped = true →
    ∃ kind : FaultKind,
      t = { s with fault := some ⟨kind, kind.opcodeOf s.fetchWord, s.pc⟩, stopped := true }

/-- R310, R315: a running machine's step faults exactly when the table says one is due, with the kind that
comes first; otherwise it neither stops nor records. The codes are R310's. -/
def Obligations.FaultRaisedExactlyWhenDue : Prop :=
  (∀ s t : State, s.stopped = false → step s = .next t →
    (∀ kind, s.faultDue = some kind →
      t.stopped = true ∧ t.fault = some ⟨kind, kind.opcodeOf s.fetchWord, s.pc⟩) ∧
    (s.faultDue = none → t.stopped = false ∧ t.fault = s.fault)) ∧
  [FaultKind.unknownInstruction, .stackOverflow, .stackUnderflow, .misalignedFetch, .fetchOutOfRange,
    .dataOutOfRange, .protectedWrite, .keyIndexOutOfRange].map FaultKind.code = [1, 2, 3, 4, 5, 6, 7, 8]

/-- R67, R75, R346: after a block store the next fetch reads each of its two bytes as stored where the store
covers it and as it was where it does not, the lower address in the high byte, and runs that word. -/
def Obligations.NextFetchSeesTheBlockStore : Prop :=
  ∀ (s : State) (x : Reg), s.mem.wf = true → 0x050 ≤ s.dataAddr → s.dataAddr + (x.val + 1) ≤ 0x1000 →
    s.pc.toNat + 2 ≤ 0xFFE →
    ∃ (t : State) (hi lo : Byte), exec (.ldMemVx x) s = .next t ∧ t.fetchWord = hi ++ lo ∧
      (∀ k : Reg, k ≤ x → s.pc.toNat + 2 = s.dataAddr + k.val → hi = s.readV k) ∧
      (∀ k : Reg, k ≤ x → s.pc.toNat + 3 = s.dataAddr + k.val → lo = s.readV k) ∧
      (s.pc.toNat + 2 < s.dataAddr ∨ s.dataAddr + (x.val + 1) ≤ s.pc.toNat + 2 →
        hi = s.mem.read (s.pc.toNat + 2)) ∧
      (s.pc.toNat + 3 < s.dataAddr ∨ s.dataAddr + (x.val + 1) ≤ s.pc.toNat + 3 →
        lo = s.mem.read (s.pc.toNat + 3)) ∧
      (s.stopped = false → s.pc.toNat % 2 = 0 → ∀ i, decode (hi ++ lo) = .ok i → step t = exec i t)

/-- R67, R75, R346: the same after a store of decimal digits. -/
def Obligations.NextFetchSeesTheBcdStore : Prop :=
  ∀ (s : State) (x : Reg), s.mem.wf = true → 0x050 ≤ s.dataAddr → s.dataAddr + 3 ≤ 0x1000 →
    s.pc.toNat + 2 ≤ 0xFFE →
    ∃ (t : State) (hi lo : Byte), exec (.ldBVx x) s = .next t ∧ t.fetchWord = hi ++ lo ∧
      (s.pc.toNat + 2 = s.dataAddr → hi.toNat = (s.readV x).toNat / 100) ∧
      (s.pc.toNat + 2 = s.dataAddr + 1 → hi.toNat = (s.readV x).toNat / 10 % 10) ∧
      (s.pc.toNat + 2 = s.dataAddr + 2 → hi.toNat = (s.readV x).toNat % 10) ∧
      (s.pc.toNat + 3 = s.dataAddr → lo.toNat = (s.readV x).toNat / 100) ∧
      (s.pc.toNat + 3 = s.dataAddr + 1 → lo.toNat = (s.readV x).toNat / 10 % 10) ∧
      (s.pc.toNat + 3 = s.dataAddr + 2 → lo.toNat = (s.readV x).toNat % 10) ∧
      (s.pc.toNat + 2 < s.dataAddr ∨ s.dataAddr + 3 ≤ s.pc.toNat + 2 → hi = s.mem.read (s.pc.toNat + 2)) ∧
      (s.pc.toNat + 3 < s.dataAddr ∨ s.dataAddr + 3 ≤ s.pc.toNat + 3 → lo = s.mem.read (s.pc.toNat + 3)) ∧
      (s.stopped = false → s.pc.toNat % 2 = 0 → ∀ i, decode (hi ++ lo) = .ok i → step t = exec i t)

/-! ### Control transfer (41_control_flow.md) -/

/-- R153: a return pops the top of the stack into `PC` as it is; on an empty stack it faults. -/
def Obligations.ReturnPopsTheStack : Prop :=
  ∀ s : State,
    (∀ rest top, s.stack = rest ++ [top] → exec .ret s = .next { s with stack := rest, pc := top }) ∧
    (s.stack = [] →
      exec .ret s = .next { s with fault := some ⟨.stackUnderflow, some 0x00EE, s.pc⟩, stopped := true })

/-- R154, R160: the jumps write `PC` and nothing else; `Bnnn` adds `V0`, and its sum never wraps. -/
def Obligations.JumpsSetPc : Prop :=
  ∀ (nnn : Addr12) (s : State),
    (∃ t, exec (.jp nnn) s = .next t ∧ t = { s with pc := t.pc } ∧ t.pc.toNat = nnn.toNat) ∧
    (∃ t, exec (.jpV0 nnn) s = .next t ∧ t = { s with pc := t.pc } ∧
      t.pc.toNat = nnn.toNat + (s.readV 0).toNat)

/-- R155: a call pushes `PC + 2` (mod 2^16) and jumps; at depth 16 it faults and changes neither. -/
def Obligations.CallPushesTheReturnAddress : Prop :=
  ∀ (nnn : Addr12) (s : State),
    (s.stack.length ≠ 16 → ∃ t ret, exec (.call nnn) s = .next t ∧
      t = { s with stack := s.stack ++ [ret], pc := t.pc } ∧
      ret.toNat = (s.pc.toNat + 2) % 0x10000 ∧ t.pc.toNat = nnn.toNat) ∧
    (s.stack.length = 16 → exec (.call nnn) s = .next { s with
      fault := some ⟨.stackOverflow, some (BitVec.ofNat 16 (0x2000 + nnn.toNat)), s.pc⟩, stopped := true })

/-- R156 to R159: the comparing skips move `PC` by 4 or by 2, mod 2^16, and change nothing else. -/
def Obligations.ComparingSkips : Prop :=
  ∀ (x y : Reg) (kk : Byte) (s : State),
    exec (.seByte x kk) s = .next { s with pc := s.pc + if s.readV x = kk then 4 else 2 } ∧
    exec (.sneByte x kk) s = .next { s with pc := s.pc + if s.readV x = kk then 2 else 4 } ∧
    exec (.seReg x y) s = .next { s with pc := s.pc + if s.readV x = s.readV y then 4 else 2 } ∧
    exec (.sneReg x y) s = .next { s with pc := s.pc + if s.readV x = s.readV y then 2 else 4 }

/-- A return right after a call comes back to the instruction after the call, with nothing else changed,
wherever the return stands. -/
def Obligations.CallThenReturnComesBack : Prop :=
  ∀ (nnn : Addr12) (s : State) (p : Word), s.stack.length < 16 →
    ∃ t, exec (.call nnn) s = .next t ∧ exec .ret { t with pc := p } = .next { s with pc := s.pc + 2 }

/-- R26: no instruction but `2nnn` and `00EE` reads or writes the stack: exchanging it before or after the
instruction is the same. -/
def Obligations.OnlyCallAndReturnTouchTheStack : Prop :=
  ∀ (i : Instr) (s t : State) (l : List Word), i ≠ .ret → (∀ nnn, i ≠ .call nnn) → exec i s = .next t →
    exec i { s with stack := l } = .next { t with stack := l }

/-! ### Registers and ALU (42_alu.md) -/

/-- R181, R183: `6xkk` and `8xy0`, and that the copy is idempotent. -/
def Obligations.LoadAndCopyRegister : Prop :=
  ∀ (x y : Reg) (kk : Byte) (s : State),
    (∃ t, exec (.ldByte x kk) s = .next t ∧ t = { s with v := t.v, pc := s.pc + 2 } ∧
      t.readV x = kk ∧ ∀ r, r ≠ x → t.readV r = s.readV r) ∧
    (∃ t, exec (.ldReg x y) s = .next t ∧ t = { s with v := t.v, pc := s.pc + 2 } ∧
      t.readV x = s.readV y ∧ (∀ r, r ≠ x → t.readV r = s.readV r) ∧
      exec (.ldReg x y) t = .next { t with pc := t.pc + 2 })

/-- R182: `7xkk` adds mod 256 and writes no other register: `VF` keeps its value unless `x = 0xF`. -/
def Obligations.AddImmediateWraps : Prop :=
  ∀ (x : Reg) (kk : Byte) (s : State),
    ∃ t, exec (.addByte x kk) s = .next t ∧ t = { s with v := t.v, pc := s.pc + 2 } ∧
      (t.readV x).toNat = ((s.readV x).toNat + kk.toNat) % 256 ∧ ∀ r, r ≠ x → t.readV r = s.readV r

/-- R184 to R186: OR, AND and XOR, bit by bit; `VF` is written only as `V[x]`. -/
def Obligations.LogicOperations : Prop :=
  ∀ (x y : Reg) (s : State),
    (∃ t, exec (.orReg x y) s = .next t ∧ t = { s with v := t.v, pc := s.pc + 2 } ∧
      (∀ k < 8, (t.readV x).getLsbD k = ((s.readV x).getLsbD k || (s.readV y).getLsbD k)) ∧
      ∀ r, r ≠ x → t.readV r = s.readV r) ∧
    (∃ t, exec (.andReg x y) s = .next t ∧ t = { s with v := t.v, pc := s.pc + 2 } ∧
      (∀ k < 8, (t.readV x).getLsbD k = ((s.readV x).getLsbD k && (s.readV y).getLsbD k)) ∧
      ∀ r, r ≠ x → t.readV r = s.readV r) ∧
    (∃ t, exec (.xorReg x y) s = .next t ∧ t = { s with v := t.v, pc := s.pc + 2 } ∧
      (∀ k < 8, (t.readV x).getLsbD k = ((s.readV x).getLsbD k ^^ (s.readV y).getLsbD k)) ∧
      ∀ r, r ≠ x → t.readV r = s.readV r)

/-- R187: the sum mod 256 and the carry, the flag written last. -/
def Obligations.AddSetsTheCarry : Prop :=
  ∀ (x y : Reg) (s : State),
    ∃ t, exec (.addReg x y) s = .next t ∧ t = { s with v := t.v, pc := s.pc + 2 } ∧
      (x ≠ flagReg → (t.readV x).toNat = ((s.readV x).toNat + (s.readV y).toNat) % 256) ∧
      (t.readV flagReg).toNat = (if 255 < (s.readV x).toNat + (s.readV y).toNat then 1 else 0) ∧
      ∀ r, r ≠ x → r ≠ flagReg → t.readV r = s.readV r

/-- R188, R190: the differences mod 256 and the no-borrow flag, the result written last. -/
def Obligations.SubtractionsSetNoBorrow : Prop :=
  ∀ (x y : Reg) (s : State),
    (∃ t, exec (.sub x y) s = .next t ∧ t = { s with v := t.v, pc := s.pc + 2 } ∧
      (t.readV x).toNat = ((s.readV x).toNat + 256 - (s.readV y).toNat) % 256 ∧
      (x ≠ flagReg → (t.readV flagReg).toNat = if (s.readV y).toNat ≤ (s.readV x).toNat then 1 else 0) ∧
      ∀ r, r ≠ x → r ≠ flagReg → t.readV r = s.readV r) ∧
    (∃ t, exec (.subn x y) s = .next t ∧ t = { s with v := t.v, pc := s.pc + 2 } ∧
      (t.readV x).toNat = ((s.readV y).toNat + 256 - (s.readV x).toNat) % 256 ∧
      (x ≠ flagReg → (t.readV flagReg).toNat = if (s.readV x).toNat ≤ (s.readV y).toNat then 1 else 0) ∧
      ∀ r, r ≠ x → r ≠ flagReg → t.readV r = s.readV r)

/-- R189, R191, R194: the shifts of the source SHIFT_SOURCE chooses, for either value of it, and the bit
shifted out in `VF`, the result written last. -/
def Obligations.ShiftsTakeTheShiftSource : Prop :=
  ∀ (x y : Reg) (s : State) (src : Byte),
    src = (if Config.shiftSource = .vy then s.readV y else s.readV x) →
    (∃ t, exec (.shr x y) s = .next t ∧ t = { s with v := t.v, pc := s.pc + 2 } ∧
      (t.readV x).toNat = src.toNat / 2 ∧
      (x ≠ flagReg → (t.readV flagReg).toNat = src.toNat % 2) ∧
      ∀ r, r ≠ x → r ≠ flagReg → t.readV r = s.readV r) ∧
    (∃ t, exec (.shl x y) s = .next t ∧ t = { s with v := t.v, pc := s.pc + 2 } ∧
      (t.readV x).toNat = src.toNat * 2 % 256 ∧
      (x ≠ flagReg → (t.readV flagReg).toNat = src.toNat / 128) ∧
      ∀ r, r ≠ x → r ≠ flagReg → t.readV r = s.readV r)

/-- R192: the free byte of this execution ANDed with the mask; no bit outside the mask is ever set. The
counter `draws` is the model's own choice (log 3). -/
def Obligations.RandomByteIsMasked : Prop :=
  ∀ (x : Reg) (kk : Byte) (s : State),
    ∃ t, exec (.rnd x kk) s = .next t ∧
      t = { s with v := t.v, pc := s.pc + 2, draws := s.draws + 1 } ∧
      t.readV x = Config.randomByte s.draws &&& kk ∧ t.readV x &&& ~~~kk = 0 ∧
      ∀ r, r ≠ x → t.readV r = s.readV r

/-- R21, R22, R28: an instruction leaves every register it does not name as a destination or write as a
flag, whatever it does else. -/
def Obligations.RegistersUnchangedExceptDestinations : Prop :=
  ∀ (i : Instr) (s t : State) (r : Reg), exec i s = .next t → ¬ writesRegister r i → t.readV r = s.readV r

/-! ### Timers (43_timers.md) -/

/-- R221 to R223. -/
def Obligations.TimerInstructions : Prop :=
  ∀ (x : Reg) (s : State),
    (∃ t, exec (.ldVxDt x) s = .next t ∧ t = { s with v := t.v, pc := s.pc + 2 } ∧
      t.readV x = s.dt ∧ ∀ r, r ≠ x → t.readV r = s.readV r) ∧
    exec (.ldDtVx x) s = .next { s with dt := s.readV x, pc := s.pc + 2 } ∧
    exec (.ldStVx x) s = .next { s with st := s.readV x, pc := s.pc + 2 }

/-- R224: a tick takes `min(value, 60)` off both timers, and changes nothing else. -/
def Obligations.TickDecaysBothTimers : Prop :=
  ∀ s : State, ∃ t, hostOp .tick s = .next t ∧ t = { s with dt := t.dt, st := t.st } ∧
    t.dt.toNat = s.dt.toNat - min s.dt.toNat 60 ∧ t.st.toNat = s.st.toNat - min s.st.toNat 60

/-- R220: the timers change only by a tick, which never raises them, by their own instruction, and by a
load, whatever the host does. -/
def Obligations.TimersChangeOnlyByTheirWriters : Prop :=
  ∀ (op : HostOp) (s t : State), hostOp op s = .next t →
    (t.dt ≠ s.dt → (op = .tick ∧ t.dt.toNat < s.dt.toNat) ∨ (∃ image, op = .loadProgram (some image) ∧ t.dt = 0) ∨
      (op = .step ∧ ∃ x, s.Executes (.ldDtVx x))) ∧
    (t.st ≠ s.st → (op = .tick ∧ t.st.toNat < s.st.toNat) ∨ (∃ image, op = .loadProgram (some image) ∧ t.st = 0) ∨
      (op = .step ∧ ∃ x, s.Executes (.ldStVx x)))

/-- R27: no instruction reads `ST`, and none but `Fx07` reads `DT`; `Fx18` and `Fx15`, which write them, ignore
the old value. -/
def Obligations.TimersAreReadByOneInstruction : Prop :=
  ∀ (i : Instr) (s t : State) (b : Byte), exec i s = .next t →
    ((∀ x, i ≠ .ldStVx x) → exec i { s with st := b } = .next { t with st := b }) ∧
    ((∃ x, i = .ldStVx x) → exec i { s with st := b } = .next t) ∧
    ((∀ x, i ≠ .ldVxDt x) → (∀ x, i ≠ .ldDtVx x) → exec i { s with dt := b } = .next { t with dt := b }) ∧
    ((∃ x, i = .ldDtVx x) → exec i { s with dt := b } = .next t)

/-! ### Keypad (44_keypad.md) -/

/-- R242, R243: the skips on a key's level; a register that names no key faults. -/
def Obligations.SkipsOnAKeyLevel : Prop :=
  ∀ (x : Reg) (s : State),
    (∀ k : Key, (s.readV x).toNat = k.val →
      exec (.skp x) s = .next { s with pc := s.pc + if s.key.get k = true then 4 else 2 } ∧
      exec (.sknp x) s = .next { s with pc := s.pc + if s.key.get k = true then 2 else 4 }) ∧
    (15 < (s.readV x).toNat →
      exec (.skp x) s = .next { s with
        fault := some ⟨.keyIndexOutOfRange, some (BitVec.ofNat 16 (0xE09E + 0x100 * x.val)), s.pc⟩,
        stopped := true } ∧
      exec (.sknp x) s = .next { s with
        fault := some ⟨.keyIndexOutOfRange, some (BitVec.ofNat 16 (0xE0A1 + 0x100 * x.val)), s.pc⟩,
        stopped := true })

/-- R241, R244: the three transitions of the key wait. -/
def Obligations.KeyWaitStateMachine : Prop :=
  ∀ (x : Reg) (s : State),
    (s.waitingForKey = false →
      exec (.ldVxK x) s = .next { s with prevKey := s.key, waitingForKey := true }) ∧
    (s.waitingForKey = true → (∀ k, ¬(s.prevKey.get k = false ∧ s.key.get k = true)) →
      exec (.ldVxK x) s = .next { s with prevKey := s.key }) ∧
    (∀ k : Key, s.waitingForKey = true → s.prevKey.get k = false → s.key.get k = true →
      (∀ j < k, ¬(s.prevKey.get j = false ∧ s.key.get j = true)) →
      ∃ t, exec (.ldVxK x) s = .next t ∧
        t = { s with v := t.v, waitingForKey := false, pc := s.pc + 2 } ∧
        (t.readV x).toNat = k.val ∧ ∀ r, r ≠ x → t.readV r = s.readV r)

/-- R30, R31, R246: every instruction but `Fx0A` ignores `waitingForKey` and `prevKey` and leaves them; all
leave `key`. -/
def Obligations.OnlyKeyWaitTouchesTheWaitState : Prop :=
  ∀ (i : Instr) (s t : State), exec i s = .next t →
    t.key = s.key ∧
    ∀ (b : Bool) (p : Vector Bool 16), (∀ x, i ≠ .ldVxK x) →
      exec i { s with waitingForKey := b, prevKey := p } = .next { t with waitingForKey := b, prevKey := p }

/-- R240, R135, R140: `setKeyState` writes one key and nothing else, stopped or not; a code outside 0..15
is refused, which is how the model says that it is no move (log 10). -/
def Obligations.SetKeyStateWritesOneKey : Prop :=
  ∀ (code : Nat) (down : Bool) (s : State),
    (∀ k : Key, code = k.val → ∃ t, hostOp (.setKeyState code down) s = .next t ∧ t = { s with key := t.key } ∧
      t.key.get k = down ∧ ∀ j, j ≠ k → t.key.get j = s.key.get j) ∧
    (16 ≤ code → hostOp (.setKeyState code down) s = .refused (.keyCodeOutOfRange code))

/-- R245: once a step of the wait has seen the keys, pressing a key that was up is captured by the next
step, and `PC` advances by exactly 2. -/
def Obligations.PressAfterASeenReleaseIsCaptured : Prop :=
  ∀ (s : State) (x : Reg) (k : Key), s.Executes (.ldVxK x) → s.waitingForKey = true →
    (∀ j, ¬(s.prevKey.get j = false ∧ s.key.get j = true)) → s.key.get k = false →
    ∃ t u, step s = .next t ∧ t.pc = s.pc ∧ t.waitingForKey = true ∧
      runSchedule [.setKeyState k.val true, .step] t = .next u ∧
      (u.readV x).toNat = k.val ∧ u.pc = s.pc + 2 ∧ u.waitingForKey = false

/-- R244, R245: while the host changes no key, a wait that was entered stays where it is, however many
steps run: a key held down at entry is not captured. -/
def Obligations.KeysHeldAtEntryAreNotCaptured : Prop :=
  ∀ (s : State) (x : Reg) (n : Nat), s.Executes (.ldVxK x) → s.waitingForKey = false →
    Sys2Proof.core.run (n + 1) s = .next { s with prevKey := s.key, waitingForKey := true }

/-! ### Display (45_display.md) -/

/-- R261. -/
def Obligations.ClearScreen : Prop :=
  ∀ s : State, ∃ t, exec .cls s = .next t ∧ t = { s with fb := t.fb, pc := s.pc + 2 } ∧
    ∀ px py, t.fb.pixel px py = false

/-- R262: a draw flips exactly the pixels under the sprite's set bits, with wrap on both axes, and `VF` is 1
iff one of them was set; a sprite that passes 0xFFF faults. -/
def Obligations.DrawXorsTheSprite : Prop :=
  ∀ (x y : Reg) (n : Fin 16) (s : State),
    (n.val = 0 ∨ s.dataAddr + n.val ≤ 0x1000 →
      ∃ t, exec (.drw x y n) s = .next t ∧ t = { s with fb := t.fb, v := t.v, pc := s.pc + 2 } ∧
        (∀ px py, s.spriteHits (s.readV x) (s.readV y) n px py →
          t.fb.pixel px py = !s.fb.pixel px py) ∧
        (∀ px py, ¬ s.spriteHits (s.readV x) (s.readV y) n px py →
          t.fb.pixel px py = s.fb.pixel px py) ∧
        ((∃ px py, s.spriteHits (s.readV x) (s.readV y) n px py ∧ s.fb.pixel px py = true) →
          t.readV flagReg = 1) ∧
        ((∀ px py, s.spriteHits (s.readV x) (s.readV y) n px py → s.fb.pixel px py = false) →
          t.readV flagReg = 0) ∧
        ∀ r, r ≠ flagReg → t.readV r = s.readV r) ∧
    (0 < n.val → 0x1000 < s.dataAddr + n.val → exec (.drw x y n) s = .next { s with
      fault := some ⟨.dataOutOfRange,
        some (BitVec.ofNat 16 (0xD000 + 0x100 * x.val + 0x10 * y.val + n.val)), s.pc⟩, stopped := true })

/-- R262, corner case: drawing the same sprite twice at the same place restores the framebuffer. The second
draw sets `VF` iff some pixel under the sprite was 0 before the first: over a clear framebuffer, iff the
sprite has a set bit, which is where the corner case agrees with the pseudocode (log 17). -/
def Obligations.DrawingTwiceRestores : Prop :=
  ∀ (x y : Reg) (n : Fin 16) (s : State), (n.val = 0 ∨ s.dataAddr + n.val ≤ 0x1000) →
    ∃ t, exec (.drw x y n) s = .next t ∧
      (t.readV x = s.readV x → t.readV y = s.readV y → ∀ p : Word,
        ∃ u, exec (.drw x y n) { t with pc := p } = .next u ∧ u.fb = s.fb ∧
          ((∃ px py, s.spriteHits (s.readV x) (s.readV y) n px py ∧ s.fb.pixel px py = false) →
            u.readV flagReg = 1) ∧
          ((∀ px py, s.spriteHits (s.readV x) (s.readV y) n px py → s.fb.pixel px py = true) →
            u.readV flagReg = 0))

/-- R32: no instruction but `00E0` and `Dxyn` reads or writes the framebuffer. -/
def Obligations.OnlyClearAndDrawTouchTheFramebuffer : Prop :=
  ∀ (i : Instr) (s t : State) (f : Framebuffer), i ≠ .cls → (∀ x y n, i ≠ .drw x y n) →
    exec i s = .next t → exec i { s with fb := f } = .next { t with fb := f }

/-- R263: `00E0` then `Dxyn` with an all-zero sprite leaves the framebuffer and the flag at 0; over a framebuffer
that is not clear the sprite toggles nothing either. -/
def Obligations.ZeroSpriteDrawsNothing : Prop :=
  ∀ (x y : Reg) (n : Fin 16) (s : State), (n.val = 0 ∨ s.dataAddr + n.val ≤ 0x1000) →
    (∀ row < n.val, s.mem.read (s.dataAddr + row) = 0) →
    (∃ t u, exec .cls s = .next t ∧ exec (.drw x y n) t = .next u ∧ u.fb = t.fb ∧ u.readV flagReg = 0) ∧
    (∃ u, exec (.drw x y n) s = .next u ∧ u.fb = s.fb ∧ u.readV flagReg = 0)

/-! ### Index register and memory (46_index_memory.md, 20_memory.md) -/

/-- R281, R283: `Annn` and `Fx29`. -/
def Obligations.IndexLoads : Prop :=
  ∀ (nnn : Addr12) (x : Reg) (s : State),
    (∃ t, exec (.ldI nnn) s = .next t ∧ t = { s with i := t.i, pc := s.pc + 2 } ∧ t.i.toNat = nnn.toNat) ∧
    (∃ t, exec (.ldFVx x) s = .next t ∧ t = { s with i := t.i, pc := s.pc + 2 } ∧
      t.i.toNat = 5 * ((s.readV x).toNat % 16))

/-- R282: the sum mod 2^16, and the flag of the unbounded sum at 0xFFF, written last. -/
def Obligations.AddToIndexSetsTheFlag : Prop :=
  ∀ (x : Reg) (s : State),
    ∃ t, exec (.addIVx x) s = .next t ∧ t = { s with v := t.v, i := t.i, pc := s.pc + 2 } ∧
      t.i.toNat = (s.i.toNat + (s.readV x).toNat) % 0x10000 ∧
      (t.readV flagReg).toNat = (if 0xFFF < s.i.toNat + (s.readV x).toNat then 1 else 0) ∧
      ∀ r, r ≠ flagReg → t.readV r = s.readV r

/-- R284: the three decimal digits at `I`, every other byte as before; the faults of the range and of the font. -/
def Obligations.BcdStoresThreeDigits : Prop :=
  ∀ (x : Reg) (s : State), s.mem.wf = true →
    (0x050 ≤ s.dataAddr → s.dataAddr + 3 ≤ 0x1000 →
      ∃ t, exec (.ldBVx x) s = .next t ∧ t = { s with mem := t.mem, pc := s.pc + 2 } ∧
        (t.mem.read s.dataAddr).toNat = (s.readV x).toNat / 100 ∧
        (t.mem.read (s.dataAddr + 1)).toNat = (s.readV x).toNat / 10 % 10 ∧
        (t.mem.read (s.dataAddr + 2)).toNat = (s.readV x).toNat % 10 ∧
        ∀ a, a < s.dataAddr ∨ s.dataAddr + 3 ≤ a → t.mem.read a = s.mem.read a) ∧
    (0x1000 < s.dataAddr + 3 → exec (.ldBVx x) s = .next { s with
      fault := some ⟨.dataOutOfRange, some (BitVec.ofNat 16 (0xF033 + 0x100 * x.val)), s.pc⟩,
      stopped := true }) ∧
    (s.dataAddr < 0x050 → exec (.ldBVx x) s = .next { s with
      fault := some ⟨.protectedWrite, some (BitVec.ofNat 16 (0xF033 + 0x100 * x.val)), s.pc⟩,
      stopped := true })

/-- R285: `V0..Vx` at `I` in ascending order, every other byte as before, `I` moved past them; the faults. -/
def Obligations.BlockStore : Prop :=
  ∀ (x : Reg) (s : State), s.mem.wf = true →
    (0x050 ≤ s.dataAddr → s.dataAddr + (x.val + 1) ≤ 0x1000 →
      ∃ t, exec (.ldMemVx x) s = .next t ∧ t = { s with mem := t.mem, i := t.i, pc := s.pc + 2 } ∧
        (∀ r : Reg, r ≤ x → t.mem.read (s.dataAddr + r.val) = s.readV r) ∧
        (∀ a, a < s.dataAddr ∨ s.dataAddr + (x.val + 1) ≤ a → t.mem.read a = s.mem.read a) ∧
        t.i.toNat = (s.i.toNat + (x.val + 1)) % 0x10000) ∧
    (0x1000 < s.dataAddr + (x.val + 1) → exec (.ldMemVx x) s = .next { s with
      fault := some ⟨.dataOutOfRange, some (BitVec.ofNat 16 (0xF055 + 0x100 * x.val)), s.pc⟩,
      stopped := true }) ∧
    (s.dataAddr < 0x050 → exec (.ldMemVx x) s = .next { s with
      fault := some ⟨.protectedWrite, some (BitVec.ofNat 16 (0xF055 + 0x100 * x.val)), s.pc⟩,
      stopped := true })

/-- R286: `V0..Vx` from `I`, the other registers as before, `I` moved past the bytes; the fault. -/
def Obligations.BlockLoad : Prop :=
  ∀ (x : Reg) (s : State),
    (s.dataAddr + (x.val + 1) ≤ 0x1000 →
      ∃ t, exec (.ldVxMem x) s = .next t ∧ t = { s with v := t.v, i := t.i, pc := s.pc + 2 } ∧
        (∀ r : Reg, r ≤ x → t.readV r = s.mem.read (s.dataAddr + r.val)) ∧
        (∀ r : Reg, x < r → t.readV r = s.readV r) ∧
        t.i.toNat = (s.i.toNat + (x.val + 1)) % 0x10000) ∧
    (0x1000 < s.dataAddr + (x.val + 1) → exec (.ldVxMem x) s = .next { s with
      fault := some ⟨.dataOutOfRange, some (BitVec.ofNat 16 (0xF065 + 0x100 * x.val)), s.pc⟩,
      stopped := true })

/-- R287: a block load of what a block store left, from the same `I`, restores `V0..Vx`, whatever the
registers hold in between. -/
def Obligations.StoreThenLoadRestoresRegisters : Prop :=
  ∀ (x : Reg) (s : State), s.mem.wf = true → 0x050 ≤ s.dataAddr → s.dataAddr + (x.val + 1) ≤ 0x1000 →
    ∃ t, exec (.ldMemVx x) s = .next t ∧
      ∀ (v : Vector Byte 16) (p : Word), ∃ u,
        exec (.ldVxMem x) { t with v := v, i := s.i, pc := p } = .next u ∧
        ∀ r : Reg, r ≤ x → u.readV r = s.readV r

/-- R60, R64, R61: no instruction but `Fx33` and `Fx55` writes memory, and none ever writes the font. -/
def Obligations.OnlyStoresWriteMemory : Prop :=
  ∀ (i : Instr) (s t : State), exec i s = .next t →
    ((∀ x, i ≠ .ldBVx x) → (∀ x, i ≠ .ldMemVx x) → t.mem = s.mem) ∧
    (s.mem.wf = true → ∀ a < 0x050, t.mem.read a = s.mem.read a)

/-- R25, R35: the instructions that write `I`, and those that read it; every other ignores it. -/
def Obligations.IndexRegisterReadersAndWriters : Prop :=
  ∀ (i : Instr) (s t : State), exec i s = .next t →
    (t.i ≠ s.i → (∃ nnn, i = .ldI nnn) ∨ ∃ x, i = .addIVx x ∨ i = .ldFVx x ∨ i = .ldMemVx x ∨ i = .ldVxMem x) ∧
    (∀ a : Word, (∀ x y n, i ≠ .drw x y n) → (∀ x, i ≠ .addIVx x ∧ i ≠ .ldBVx x ∧ i ≠ .ldMemVx x ∧ i ≠ .ldVxMem x) →
      (∀ nnn, i ≠ .ldI nnn) → (∀ x, i ≠ .ldFVx x) → exec i { s with i := a } = .next { t with i := a })

/-- The model's own canonical form (log 6): two canonical memories that read the same everywhere are the
same list. -/
def Obligations.CanonicalMemoriesAreEqual : Prop :=
  ∀ m m' : Memory, m.wf = true → m'.wf = true → (∀ a < 0x1000, m.read a = m'.read a) → m = m'

/-! ### The host interface and reset (40_dispatch.md, 70_reset_and_hazards.md) -/

/-- R341, R342: a load resets every field but `key`, zeroes memory around the font and the image, and
answers `true`; on a read failure or an image over 3584 bytes it answers `false` and changes nothing. -/
def Obligations.LoadProgramResetsAndLoads : Prop :=
  ∀ s : State,
    (∀ image : List Byte, image.length ≤ 3584 → ∃ t, loadProgram (some image) s = (true, t) ∧
      (∀ a, (h : a < 80) → t.mem.read a = Config.font[a]) ∧
      (∀ k, (h : k < image.length) → t.mem.read (0x200 + k) = image[k]) ∧
      (∀ a, 0x050 ≤ a → a < 0x1000 → a < 0x200 ∨ 0x200 + image.length ≤ a → t.mem.read a = 0) ∧
      (∀ r, t.readV r = 0) ∧ t.i = 0 ∧ t.pc = 0x200 ∧ t.stack = [] ∧ t.dt = 0 ∧ t.st = 0 ∧
      (∀ k, t.prevKey.get k = false) ∧ t.waitingForKey = false ∧
      (∀ px py, t.fb.pixel px py = false) ∧ t.stopped = false ∧ t.fault = none ∧ t.key = s.key) ∧
    loadProgram none s = (false, s) ∧
    ∀ image : List Byte, 3584 < image.length → loadProgram (some image) s = (false, s)

/-- R131, R136: `tick` writes only `DT` and `ST`, `setKeyState` only `key`, `stop` only `stopped`; `PC` changes
only by a step or by a successful load, which sets it to 0x200. -/
def Obligations.HostOperationsWriteOnlyTheirFields : Prop :=
  ∀ (op : HostOp) (s t : State), hostOp op s = .next t →
    (op = .tick → t = { s with dt := t.dt, st := t.st }) ∧
    (∀ code down, op = .setKeyState code down → t = { s with key := t.key }) ∧
    (op = .stop → t = { s with stopped := true }) ∧
    (op = .snapshot → t = s) ∧
    (t.pc ≠ s.pc → op = .step ∨
      ∃ image, op = .loadProgram (some image) ∧ image.length ≤ 3584 ∧ t.pc = 0x200)

/-- R141: the snapshot copies ten fields and changes nothing; `key`, `prevKey` and `waitingForKey` cannot be
seen in it. -/
def Obligations.SnapshotShowsTenFields : Prop :=
  ∀ s : State, hostOp .snapshot s = .next s ∧
    (∃ c, c = snapshot s ∧ c.v = s.v ∧ c.pc = s.pc ∧ c.i = s.i ∧ c.stack = s.stack ∧ c.dt = s.dt ∧
      c.st = s.st ∧ c.mem = s.mem ∧ c.fb = s.fb ∧ c.stopped = s.stopped ∧ c.fault = s.fault) ∧
    ∀ (key prevKey : Vector Bool 16) (waiting : Bool),
      snapshot { s with key := key, prevKey := prevKey, waitingForKey := waiting } = snapshot s

/-- R343: `stopped` becomes 0 only through a successful load; a failed load leaves it; `stop()` and every
fault set it. -/
def Obligations.StoppedIsClearedOnlyByALoad : Prop :=
  (∀ (op : HostOp) (s t : State), hostOp op s = .next t → s.stopped = true → t.stopped = false →
    ∃ image, op = .loadProgram (some image) ∧ image.length ≤ 3584) ∧
  (∀ (image : Option (List Byte)) (s t : State), loadProgram image s = (true, t) → t.stopped = false) ∧
  (∀ (image : Option (List Byte)) (s t : State), loadProgram image s = (false, t) → t.stopped = s.stopped) ∧
  (∀ s : State, (stop s).stopped = true) ∧
  ∀ (s : State) (kind : FaultKind) (op : Option Word), (s.takeFault kind op).stopped = true

/-- R37: the power-on values. -/
def Obligations.PowerOnState : Prop :=
  (∀ a, (h : a < 80) → State.reset.mem.read a = Config.font[a]) ∧
  (∀ a, 80 ≤ a → a < 0x1000 → State.reset.mem.read a = 0) ∧
  (∀ r, State.reset.readV r = 0) ∧ State.reset.i = 0 ∧ State.reset.pc = 0x200 ∧ State.reset.stack = [] ∧
  State.reset.dt = 0 ∧ State.reset.st = 0 ∧
  (∀ k, State.reset.key.get k = false ∧ State.reset.prevKey.get k = false) ∧
  State.reset.waitingForKey = false ∧ (∀ px py, State.reset.fb.pixel px py = false) ∧
  State.reset.stopped = false ∧ State.reset.fault = none

/-- Before any load the first step meets the word 0x0000 at 0x200 and faults, and every later step does
nothing. -/
def Obligations.StepBeforeAnyLoadFaults : Prop :=
  ∀ n : Nat, Sys2Proof.core.run (n + 1) Sys2Proof.core.reset =
    .next { State.reset with fault := some ⟨.unknownInstruction, some 0x0000, 0x200⟩, stopped := true }

/-- R139 (c): a parked machine stays as it is for any number of steps. That `PC` is even is the model's own
reading (log 20). -/
def Obligations.ParkedMachineStaysParked : Prop :=
  ∀ (s : State) (n : Nat), s.Parked → Sys2Proof.core.run n s = .next s

/-! ### Invariants (10_state.md R38) -/

/-- The invariants of R38, and the model's own canonical form of memory (log 6), hold at power-on. -/
def Obligations.InvariantHoldsAtReset : Prop := State.reset.Inv

/-- Every host operation, `step()` the first of them, keeps the invariants of R38 and the model's own canonical
form of memory (log 6), from every state that meets them. -/
def Obligations.HostOperationsKeepTheInvariant : Prop :=
  ∀ (op : HostOp) (s t : State), s.Inv → hostOp op s = .next t → t.Inv

/-- R38: its four properties hold in every state reachable from power-on by host operations. -/
def Obligations.ReachableStatesMeetTheInvariant : Prop :=
  ∀ s : State, s.Reachable →
    s.stack.length ≤ 16 ∧ (∀ a, (h : a < 80) → s.mem.read a = Config.font[a]) ∧
    (s.waitingForKey = true → ∃ x, decode (s.mem.read s.pc.toNat ++ s.mem.read (s.pc.toNat + 1)) =
      .ok (.ldVxK x)) ∧
    (s.fault ≠ none → s.stopped = true)
end

