-- ==== Sys2Proof/Laws/Encode.lean ====
section
/-! SUPPORT. The fields of an encoded word, and the number it is (30_encoding.md R91, R92). -/

namespace Sys2Proof

/-- A concatenation as a number. -/
theorem append_toNat {m n : Nat} (a : BitVec m) (b : BitVec n) : (a ++ b).toNat = a.toNat * 2 ^ n + b.toNat := by
  rw [BitVec.toNat_append, Nat.shiftLeft_eq, Nat.mul_comm, ← Nat.two_pow_add_eq_or_of_lt b.isLt]

@[simp] theorem nibble_toNat (x : Fin 16) : (nibble x).toNat = x.val := rfl

/-! ### The number of a word -/

theorem encodeNnn_toNat (op : BitVec 4) (nnn : Addr12) :
    (encodeNnn op nnn).toNat = op.toNat * 0x1000 + nnn.toNat :=
  append_toNat op nnn

theorem encodeXkk_toNat (op : BitVec 4) (x : Reg) (kk : Byte) :
    (encodeXkk op x kk).toNat = op.toNat * 0x1000 + x.val * 0x100 + kk.toNat := by
  refine (append_toNat (op ++ nibble x) kk).trans ?_
  rw [append_toNat, nibble_toNat]
  omega

theorem encodeXyn_toNat (op : BitVec 4) (x y n : Fin 16) :
    (encodeXyn op x y n).toNat = op.toNat * 0x1000 + x.val * 0x100 + y.val * 0x10 + n.val := by
  refine (append_toNat (op ++ nibble x ++ nibble y) (nibble n)).trans ?_
  rw [append_toNat, append_toNat, nibble_toNat, nibble_toNat, nibble_toNat]
  omega

/-! ### The fields of a word, as numbers -/

theorem opField_toNat (w : Word) : (opField w).toNat = w.toNat / 0x1000 := by
  have := w.isLt
  simp only [opField, BitVec.extractLsb'_toNat, Nat.shiftRight_eq_div_pow]
  omega

theorem xField_val (w : Word) : (xField w).val = w.toNat / 0x100 % 0x10 := by
  show (w.extractLsb' 8 4).toNat = _
  simp only [BitVec.extractLsb'_toNat, Nat.shiftRight_eq_div_pow]

theorem yField_val (w : Word) : (yField w).val = w.toNat / 0x10 % 0x10 := by
  show (w.extractLsb' 4 4).toNat = _
  simp only [BitVec.extractLsb'_toNat, Nat.shiftRight_eq_div_pow]

theorem nField_val (w : Word) : (nField w).val = w.toNat % 0x10 := by
  show (w.extractLsb' 0 4).toNat = _
  simp only [BitVec.extractLsb'_toNat, Nat.shiftRight_zero]

theorem kkField_toNat (w : Word) : (kkField w).toNat = w.toNat % 0x100 := by
  simp only [kkField, BitVec.extractLsb'_toNat, Nat.shiftRight_zero]

theorem nnnField_toNat (w : Word) : (nnnField w).toNat = w.toNat % 0x1000 := by
  simp only [nnnField, BitVec.extractLsb'_toNat, Nat.shiftRight_zero]

/-! ### The fields of an encoded word -/

@[simp] theorem opField_encodeNnn (op : BitVec 4) (nnn : Addr12) : opField (encodeNnn op nnn) = op := by
  apply BitVec.eq_of_toNat_eq
  rw [opField_toNat, encodeNnn_toNat]
  have := nnn.isLt
  omega

@[simp] theorem nnnField_encodeNnn (op : BitVec 4) (nnn : Addr12) : nnnField (encodeNnn op nnn) = nnn := by
  apply BitVec.eq_of_toNat_eq
  rw [nnnField_toNat, encodeNnn_toNat]
  have := nnn.isLt
  omega

@[simp] theorem opField_encodeXkk (op : BitVec 4) (x : Reg) (kk : Byte) : opField (encodeXkk op x kk) = op := by
  apply BitVec.eq_of_toNat_eq
  rw [opField_toNat, encodeXkk_toNat]
  have := kk.isLt
  omega

@[simp] theorem xField_encodeXkk (op : BitVec 4) (x : Reg) (kk : Byte) : xField (encodeXkk op x kk) = x := by
  apply Fin.ext
  rw [xField_val, encodeXkk_toNat]
  have := kk.isLt
  omega

@[simp] theorem kkField_encodeXkk (op : BitVec 4) (x : Reg) (kk : Byte) : kkField (encodeXkk op x kk) = kk := by
  apply BitVec.eq_of_toNat_eq
  rw [kkField_toNat, encodeXkk_toNat]
  have := kk.isLt
  omega

@[simp] theorem opField_encodeXyn (op : BitVec 4) (x y n : Fin 16) : opField (encodeXyn op x y n) = op := by
  apply BitVec.eq_of_toNat_eq
  rw [opField_toNat, encodeXyn_toNat]
  omega

@[simp] theorem xField_encodeXyn (op : BitVec 4) (x y n : Fin 16) : xField (encodeXyn op x y n) = x := by
  apply Fin.ext
  rw [xField_val, encodeXyn_toNat]
  omega

@[simp] theorem yField_encodeXyn (op : BitVec 4) (x y n : Fin 16) : yField (encodeXyn op x y n) = y := by
  apply Fin.ext
  rw [yField_val, encodeXyn_toNat]
  omega

@[simp] theorem nField_encodeXyn (op : BitVec 4) (x y n : Fin 16) : nField (encodeXyn op x y n) = n := by
  apply Fin.ext
  rw [nField_val, encodeXyn_toNat]
  omega

end Sys2Proof
end

