-- ==== Sys2Proof/Laws/Framebuffer.lean ====
section
/-! SUPPORT. What a pixel is after the framebuffer operations (45_display.md). -/

namespace Sys2Proof.Machine

/-- A toggle flips its pixel and no other (R262). -/
@[simp] theorem Framebuffer.pixel_toggle (f : Framebuffer) (px qx : Fin 64) (py qy : Fin 32) :
    (f.toggle px py).pixel qx qy = if qx = px ∧ qy = py then !f.pixel qx qy else f.pixel qx qy := by
  unfold Framebuffer.toggle Framebuffer.pixel
  simp only [Vector.get_eq_getElem, Vector.getElem_set]
  by_cases hy : qy = py
  · subst hy
    by_cases hx : qx = px
    · subst hx; simp
    · rw [if_pos rfl, Vector.getElem_set, if_neg fun e : px.val = qx.val => hx (Fin.ext e.symm),
        if_neg fun e => hx e.1]
  · rw [if_neg fun e : py.val = qy.val => hy (Fin.ext e.symm), if_neg fun e => hy e.2]

/-- Every pixel of the cleared framebuffer is 0 (R261). -/
@[simp] theorem Framebuffer.pixel_clear (px : Fin 64) (py : Fin 32) : Framebuffer.clear.pixel px py = false := by
  simp [Framebuffer.clear, Framebuffer.pixel, Vector.get_eq_getElem]

/-- Framebuffers with equal pixels are equal. -/
theorem Framebuffer.ext_pixel {f g : Framebuffer} (h : ∀ px py, f.pixel px py = g.pixel px py) : f = g := by
  apply Vector.ext
  intro y hy
  apply Vector.ext
  intro x hx
  simpa [Framebuffer.pixel, Vector.get_eq_getElem] using h ⟨x, hx⟩ ⟨y, hy⟩

/-- Drawing a pixel toggles it and remembers whether it was 1 (R262). -/
@[simp] theorem drawPixel_fb (d : Drawing) (px : Fin 64) (py : Fin 32) : (drawPixel d px py).fb = d.fb.toggle px py := rfl

@[simp] theorem drawPixel_collided (d : Drawing) (px : Fin 64) (py : Fin 32) :
    (drawPixel d px py).collided = (d.collided || d.fb.pixel px py) := rfl

@[simp] theorem drawRows_nil (vx vy : Byte) (row : Nat) (d : Drawing) : drawRows vx vy row [] d = d := rfl

@[simp] theorem drawRows_cons (vx vy : Byte) (row : Nat) (b : Byte) (bs : List Byte) (d : Drawing) :
    drawRows vx vy row (b :: bs) d = drawRows vx vy (row + 1) bs (drawRow vx vy row b d) := rfl

/-- A row of eight zero bits draws nothing (R263). -/
@[simp] theorem drawRow_zero (vx vy : Byte) (row : Nat) (d : Drawing) : drawRow vx vy row 0 d = d := by
  simp [drawRow, List.range_succ, List.range_zero]

end Sys2Proof.Machine
end

