-- ==== Sys2Proof/Laws/Memory.lean ====
section
/-! SUPPORT. What reading gives after a write, a store and a load, and that every memory operation keeps
the canonical form (20_memory.md R66, R69, R72; log 6). -/

namespace Sys2Proof.Machine

/-! ### Reads after writes -/

@[simp] theorem Memory.read_nil (a : Nat) : Memory.read [] a = Memory.unlisted a := rfl

/-- Below the lowest cell nothing is listed. -/
theorem Memory.read_of_lt_wfFrom {m : Memory} {lo a : Nat} (h : Memory.wfFrom lo m = true) (ha : a < lo) :
    m.read a = Memory.unlisted a := by
  induction m generalizing lo with
  | nil => rfl
  | cons c rest ih =>
    obtain ⟨k, b⟩ := c
    simp only [Memory.wfFrom, Bool.and_eq_true, decide_eq_true_eq] at h
    obtain ⟨⟨⟨hk, -⟩, -⟩, hr⟩ := h
    rw [Memory.read, if_neg (by omega)]
    exact ih hr (by omega)

/-- A write gives the byte at its address and leaves every other address as it was (R72). -/
theorem Memory.read_write_of_wfFrom {m : Memory} {lo : Nat} (h : Memory.wfFrom lo m = true) (a a' : Nat) (b : Byte) :
    (m.write a b).read a' = if a' = a then b else m.read a' := by
  induction m generalizing lo with
  | nil =>
    by_cases hb : b = Memory.unlisted a
    · by_cases e : a' = a <;> simp [Memory.write, hb, e]
    · by_cases e : a' = a <;> simp [Memory.write, Memory.read, hb, e]
  | cons c rest ih =>
    obtain ⟨k, d⟩ := c
    simp only [Memory.wfFrom, Bool.and_eq_true, decide_eq_true_eq] at h
    obtain ⟨⟨⟨-, -⟩, -⟩, hr⟩ := h
    have below : ∀ {j}, j ≤ k → Memory.read rest j = Memory.unlisted j := fun hj =>
      Memory.read_of_lt_wfFrom hr (by omega)
    rw [Memory.write]
    rcases Nat.lt_trichotomy a k with hak | hak | hak
    · rw [if_pos hak]
      by_cases hb : b = Memory.unlisted a
      · rw [if_pos hb]
        by_cases e : a' = a
        · rw [if_pos e, e, Memory.read, if_neg (by omega), below (by omega), hb]
        · rw [if_neg e]
      · rw [if_neg hb]; conv_lhs => rw [Memory.read]
    · subst hak
      rw [if_neg (by omega), if_pos rfl]
      by_cases hb : b = Memory.unlisted a
      · rw [if_pos hb]
        by_cases e : a' = a
        · rw [if_pos e, e, below (Nat.le_refl _), hb]
        · rw [if_neg e, Memory.read, if_neg e]
      · rw [if_neg hb]
        by_cases e : a' = a <;> simp [Memory.read, e]
    · rw [if_neg (by omega), if_neg (by omega), Memory.read, ih hr]
      by_cases e : a' = k
      · rw [if_pos e, if_neg (by omega), Memory.read, if_pos e]
      · rw [if_neg e, Memory.read, if_neg e]

/-- `Memory.read_write_of_wfFrom` on a canonical memory. -/
theorem Memory.read_write {m : Memory} (h : m.wf = true) (a a' : Nat) (b : Byte) :
    (m.write a b).read a' = if a' = a then b else m.read a' :=
  Memory.read_write_of_wfFrom h a a' b

/-! ### The canonical form -/

/-- A write at or above `lo` keeps the canonical form from `lo` on. -/
theorem Memory.wfFrom_write {m : Memory} {lo a : Nat} (h : Memory.wfFrom lo m = true) (hlo : lo ≤ a)
    (ha : a < memSize) (b : Byte) : Memory.wfFrom lo (m.write a b) = true := by
  induction m generalizing lo with
  | nil => by_cases hb : b = Memory.unlisted a <;> simp [Memory.write, Memory.wfFrom, hb, hlo, ha]
  | cons c rest ih =>
    obtain ⟨k, d⟩ := c
    simp only [Memory.wfFrom, Bool.and_eq_true, decide_eq_true_eq] at h
    obtain ⟨⟨⟨hk, hks⟩, hd⟩, hr⟩ := h
    rw [Memory.write]
    rcases Nat.lt_trichotomy a k with hak | hak | hak
    · rw [if_pos hak]
      by_cases hb : b = Memory.unlisted a
      · simp [hb, Memory.wfFrom, hk, hks, hd, hr]
      · have : a + 1 ≤ k := hak
        simp [hb, Memory.wfFrom, hlo, ha, hks, hd, hr, this]
    · subst hak
      rw [if_neg (by omega), if_pos rfl]
      by_cases hb : b = Memory.unlisted a
      · rw [if_pos hb]
        cases rest with
        | nil => rfl
        | cons e es =>
          simp only [Memory.wfFrom, Bool.and_eq_true, decide_eq_true_eq] at hr ⊢
          exact ⟨⟨⟨by omega, hr.1.1.2⟩, hr.1.2⟩, hr.2⟩
      · simp [hb, Memory.wfFrom, hk, hks, hr]
    · rw [if_neg (by omega), if_neg (by omega)]
      simp [Memory.wfFrom, hk, hks, hd, ih hr (by omega)]

/-- A write inside the address space keeps the canonical form (log 6). -/
theorem Memory.wf_write {m : Memory} (h : m.wf = true) {a : Nat} (ha : a < memSize) (b : Byte) :
    (m.write a b).wf = true :=
  Memory.wfFrom_write h (Nat.zero_le a) ha b

/-- A store inside the address space keeps the canonical form (log 6). -/
theorem Memory.wf_store {m : Memory} (h : m.wf = true) {a : Nat} (bytes : List Byte)
    (ha : a + bytes.length ≤ memSize) : (m.store a bytes).wf = true := by
  induction bytes generalizing m a with
  | nil => exact h
  | cons b bs ih =>
    rw [List.length_cons] at ha
    exact ih (Memory.wf_write h (by omega) b) (by omega)

/-- The empty list of cells is canonical: power-on memory (R37). -/
theorem Memory.wf_nil : Memory.wf [] = true := rfl

/-! ### Stores and loads -/

/-- A store gives its bytes in the stored range and leaves every other address as it was (R69, R72). -/
theorem Memory.read_store {m : Memory} (h : m.wf = true) {a : Nat} (bytes : List Byte)
    (ha : a + bytes.length ≤ memSize) (a' : Nat) :
    (m.store a bytes).read a' =
      if a ≤ a' then bytes.getD (a' - a) (m.read a') else m.read a' := by
  induction bytes generalizing m a with
  | nil => simp [Memory.store]
  | cons b bs ih =>
    rw [List.length_cons] at ha
    rw [Memory.store, ih (Memory.wf_write h (by omega) b) (by omega), Memory.read_write h]
    rcases Nat.lt_trichotomy a a' with e | e | e
    · obtain ⟨d, rfl⟩ : ∃ d, a' = a + 1 + d := ⟨a' - (a + 1), by omega⟩
      rw [if_pos (by omega), if_neg (by omega), if_pos (by omega),
        show a + 1 + d - (a + 1) = d by omega, show a + 1 + d - a = d + 1 by omega]
      rfl
    · subst e
      simp
    · rw [if_neg (by omega), if_neg (by omega), if_neg (by omega)]

/-- Outside the stored bytes every address reads as before (R72). -/
theorem Memory.read_store_outside {m : Memory} (h : m.wf = true) {a : Nat} (bytes : List Byte)
    (ha : a + bytes.length ≤ memSize) {a' : Nat} (out : a' < a ∨ a + bytes.length ≤ a') :
    (m.store a bytes).read a' = m.read a' := by
  rw [Memory.read_store h bytes ha]
  split
  · rw [List.getD_eq_getElem?_getD, List.getElem?_eq_none (by omega)]; rfl
  · rfl

/-- A stored byte reads as stored (R72). -/
theorem Memory.read_store_inside {m : Memory} (h : m.wf = true) {a : Nat} (bytes : List Byte)
    (ha : a + bytes.length ≤ memSize) {k : Nat} (hk : k < bytes.length) :
    (m.store a bytes).read (a + k) = bytes[k] := by
  rw [Memory.read_store h bytes ha, if_pos (by omega), Nat.add_sub_cancel_left,
    List.getD_eq_getElem?_getD, List.getElem?_eq_getElem hk]
  rfl

@[simp] theorem Memory.length_load (m : Memory) (a n : Nat) : (m.load a n).length = n := by
  simp [Memory.load]

/-- Byte `k` of a load is the byte at `a + k` (R69). -/
@[simp] theorem Memory.getElem_load (m : Memory) (a n k : Nat) (h : k < (m.load a n).length) :
    (m.load a n)[k] = m.read (a + k) := by
  simp [Memory.load]

/-- Byte `k` of a load, or the default past its end. -/
theorem Memory.getD_load (m : Memory) (a n k : Nat) (d : Byte) :
    (m.load a n).getD k d = if k < n then m.read (a + k) else d := by
  by_cases h : k < n <;> simp [List.getD_eq_getElem?_getD, Memory.load, h]

/-! ### The checks (R64, R65) -/

/-- A range passes iff it covers no byte or ends within the store (R65). -/
@[simp] theorem rangeFault_none_iff (a len : Nat) : rangeFault a len = none ↔ len = 0 ∨ a + len ≤ memSize := by
  unfold rangeFault
  split <;> simp <;> omega

/-- A range can only fail as `DataOutOfRange`. -/
theorem rangeFault_some_iff (a len : Nat) (kind : FaultKind) :
    rangeFault a len = some kind ↔ kind = .dataOutOfRange ∧ 0 < len ∧ memSize < a + len := by
  unfold rangeFault
  split <;> simp_all [eq_comm]

/-- A store of at least one byte passes iff it ends within the store and begins past the font (R64, R65). -/
theorem storeFault_none_iff {a len : Nat} (h : 0 < len) :
    storeFault a len = none ↔ a + len ≤ memSize ∧ Config.fontBytes ≤ a := by
  unfold storeFault rangeFault
  split_ifs <;> simp_all

/-- Which fault a store of at least one byte raises, the range first (R280, R315). -/
theorem storeFault_some_iff {a len : Nat} (h : 0 < len) (kind : FaultKind) :
    storeFault a len = some kind ↔
      (kind = .dataOutOfRange ∧ memSize < a + len) ∨
        (kind = .protectedWrite ∧ a + len ≤ memSize ∧ a < Config.fontBytes) := by
  unfold storeFault rangeFault
  split_ifs <;> cases kind <;> simp_all

end Sys2Proof.Machine
end

