-- ==== Sys2Proof/Laws/State.lean ====
section
/-! SUPPORT. One lemma for each field under each named update of the state, so that no later proof
unfolds a record update; then what reading a register gives after each update. -/

namespace Sys2Proof.Machine

variable (s : State)

@[simp] theorem State.writeV_mem (x : Reg) (b : Byte) : (s.writeV x b).mem = s.mem := rfl
@[simp] theorem State.writeV_v (x : Reg) (b : Byte) : (s.writeV x b).v = s.v.set x b := rfl
@[simp] theorem State.writeV_i (x : Reg) (b : Byte) : (s.writeV x b).i = s.i := rfl
@[simp] theorem State.writeV_pc (x : Reg) (b : Byte) : (s.writeV x b).pc = s.pc := rfl
@[simp] theorem State.writeV_stack (x : Reg) (b : Byte) : (s.writeV x b).stack = s.stack := rfl
@[simp] theorem State.writeV_dt (x : Reg) (b : Byte) : (s.writeV x b).dt = s.dt := rfl
@[simp] theorem State.writeV_st (x : Reg) (b : Byte) : (s.writeV x b).st = s.st := rfl
@[simp] theorem State.writeV_key (x : Reg) (b : Byte) : (s.writeV x b).key = s.key := rfl
@[simp] theorem State.writeV_prevKey (x : Reg) (b : Byte) : (s.writeV x b).prevKey = s.prevKey := rfl
@[simp] theorem State.writeV_waitingForKey (x : Reg) (b : Byte) : (s.writeV x b).waitingForKey = s.waitingForKey := rfl
@[simp] theorem State.writeV_fb (x : Reg) (b : Byte) : (s.writeV x b).fb = s.fb := rfl
@[simp] theorem State.writeV_stopped (x : Reg) (b : Byte) : (s.writeV x b).stopped = s.stopped := rfl
@[simp] theorem State.writeV_fault (x : Reg) (b : Byte) : (s.writeV x b).fault = s.fault := rfl
@[simp] theorem State.writeV_draws (x : Reg) (b : Byte) : (s.writeV x b).draws = s.draws := rfl

@[simp] theorem State.writeBlock_mem (bytes : List Byte) : (s.writeBlock bytes).mem = s.mem := rfl
@[simp] theorem State.writeBlock_v (bytes : List Byte) : (s.writeBlock bytes).v = writeRegs s.v 0 bytes := rfl
@[simp] theorem State.writeBlock_i (bytes : List Byte) : (s.writeBlock bytes).i = s.i := rfl
@[simp] theorem State.writeBlock_pc (bytes : List Byte) : (s.writeBlock bytes).pc = s.pc := rfl
@[simp] theorem State.writeBlock_stack (bytes : List Byte) : (s.writeBlock bytes).stack = s.stack := rfl
@[simp] theorem State.writeBlock_dt (bytes : List Byte) : (s.writeBlock bytes).dt = s.dt := rfl
@[simp] theorem State.writeBlock_st (bytes : List Byte) : (s.writeBlock bytes).st = s.st := rfl
@[simp] theorem State.writeBlock_key (bytes : List Byte) : (s.writeBlock bytes).key = s.key := rfl
@[simp] theorem State.writeBlock_prevKey (bytes : List Byte) : (s.writeBlock bytes).prevKey = s.prevKey := rfl
@[simp] theorem State.writeBlock_waitingForKey (bytes : List Byte) : (s.writeBlock bytes).waitingForKey = s.waitingForKey := rfl
@[simp] theorem State.writeBlock_fb (bytes : List Byte) : (s.writeBlock bytes).fb = s.fb := rfl
@[simp] theorem State.writeBlock_stopped (bytes : List Byte) : (s.writeBlock bytes).stopped = s.stopped := rfl
@[simp] theorem State.writeBlock_fault (bytes : List Byte) : (s.writeBlock bytes).fault = s.fault := rfl
@[simp] theorem State.writeBlock_draws (bytes : List Byte) : (s.writeBlock bytes).draws = s.draws := rfl

@[simp] theorem State.writeI_mem (a : Word) : (s.writeI a).mem = s.mem := rfl
@[simp] theorem State.writeI_v (a : Word) : (s.writeI a).v = s.v := rfl
@[simp] theorem State.writeI_i (a : Word) : (s.writeI a).i = a := rfl
@[simp] theorem State.writeI_pc (a : Word) : (s.writeI a).pc = s.pc := rfl
@[simp] theorem State.writeI_stack (a : Word) : (s.writeI a).stack = s.stack := rfl
@[simp] theorem State.writeI_dt (a : Word) : (s.writeI a).dt = s.dt := rfl
@[simp] theorem State.writeI_st (a : Word) : (s.writeI a).st = s.st := rfl
@[simp] theorem State.writeI_key (a : Word) : (s.writeI a).key = s.key := rfl
@[simp] theorem State.writeI_prevKey (a : Word) : (s.writeI a).prevKey = s.prevKey := rfl
@[simp] theorem State.writeI_waitingForKey (a : Word) : (s.writeI a).waitingForKey = s.waitingForKey := rfl
@[simp] theorem State.writeI_fb (a : Word) : (s.writeI a).fb = s.fb := rfl
@[simp] theorem State.writeI_stopped (a : Word) : (s.writeI a).stopped = s.stopped := rfl
@[simp] theorem State.writeI_fault (a : Word) : (s.writeI a).fault = s.fault := rfl
@[simp] theorem State.writeI_draws (a : Word) : (s.writeI a).draws = s.draws := rfl

@[simp] theorem State.jump_mem (target : Word) : (s.jump target).mem = s.mem := rfl
@[simp] theorem State.jump_v (target : Word) : (s.jump target).v = s.v := rfl
@[simp] theorem State.jump_i (target : Word) : (s.jump target).i = s.i := rfl
@[simp] theorem State.jump_pc (target : Word) : (s.jump target).pc = target := rfl
@[simp] theorem State.jump_stack (target : Word) : (s.jump target).stack = s.stack := rfl
@[simp] theorem State.jump_dt (target : Word) : (s.jump target).dt = s.dt := rfl
@[simp] theorem State.jump_st (target : Word) : (s.jump target).st = s.st := rfl
@[simp] theorem State.jump_key (target : Word) : (s.jump target).key = s.key := rfl
@[simp] theorem State.jump_prevKey (target : Word) : (s.jump target).prevKey = s.prevKey := rfl
@[simp] theorem State.jump_waitingForKey (target : Word) : (s.jump target).waitingForKey = s.waitingForKey := rfl
@[simp] theorem State.jump_fb (target : Word) : (s.jump target).fb = s.fb := rfl
@[simp] theorem State.jump_stopped (target : Word) : (s.jump target).stopped = s.stopped := rfl
@[simp] theorem State.jump_fault (target : Word) : (s.jump target).fault = s.fault := rfl
@[simp] theorem State.jump_draws (target : Word) : (s.jump target).draws = s.draws := rfl

@[simp] theorem State.advance_mem (k : Word) : (s.advance k).mem = s.mem := rfl
@[simp] theorem State.advance_v (k : Word) : (s.advance k).v = s.v := rfl
@[simp] theorem State.advance_i (k : Word) : (s.advance k).i = s.i := rfl
@[simp] theorem State.advance_pc (k : Word) : (s.advance k).pc = s.pc + k := rfl
@[simp] theorem State.advance_stack (k : Word) : (s.advance k).stack = s.stack := rfl
@[simp] theorem State.advance_dt (k : Word) : (s.advance k).dt = s.dt := rfl
@[simp] theorem State.advance_st (k : Word) : (s.advance k).st = s.st := rfl
@[simp] theorem State.advance_key (k : Word) : (s.advance k).key = s.key := rfl
@[simp] theorem State.advance_prevKey (k : Word) : (s.advance k).prevKey = s.prevKey := rfl
@[simp] theorem State.advance_waitingForKey (k : Word) : (s.advance k).waitingForKey = s.waitingForKey := rfl
@[simp] theorem State.advance_fb (k : Word) : (s.advance k).fb = s.fb := rfl
@[simp] theorem State.advance_stopped (k : Word) : (s.advance k).stopped = s.stopped := rfl
@[simp] theorem State.advance_fault (k : Word) : (s.advance k).fault = s.fault := rfl
@[simp] theorem State.advance_draws (k : Word) : (s.advance k).draws = s.draws := rfl

@[simp] theorem State.writeStack_mem (l : List Word) : (s.writeStack l).mem = s.mem := rfl
@[simp] theorem State.writeStack_v (l : List Word) : (s.writeStack l).v = s.v := rfl
@[simp] theorem State.writeStack_i (l : List Word) : (s.writeStack l).i = s.i := rfl
@[simp] theorem State.writeStack_pc (l : List Word) : (s.writeStack l).pc = s.pc := rfl
@[simp] theorem State.writeStack_stack (l : List Word) : (s.writeStack l).stack = l := rfl
@[simp] theorem State.writeStack_dt (l : List Word) : (s.writeStack l).dt = s.dt := rfl
@[simp] theorem State.writeStack_st (l : List Word) : (s.writeStack l).st = s.st := rfl
@[simp] theorem State.writeStack_key (l : List Word) : (s.writeStack l).key = s.key := rfl
@[simp] theorem State.writeStack_prevKey (l : List Word) : (s.writeStack l).prevKey = s.prevKey := rfl
@[simp] theorem State.writeStack_waitingForKey (l : List Word) : (s.writeStack l).waitingForKey = s.waitingForKey := rfl
@[simp] theorem State.writeStack_fb (l : List Word) : (s.writeStack l).fb = s.fb := rfl
@[simp] theorem State.writeStack_stopped (l : List Word) : (s.writeStack l).stopped = s.stopped := rfl
@[simp] theorem State.writeStack_fault (l : List Word) : (s.writeStack l).fault = s.fault := rfl
@[simp] theorem State.writeStack_draws (l : List Word) : (s.writeStack l).draws = s.draws := rfl

@[simp] theorem State.writeDt_mem (b : Byte) : (s.writeDt b).mem = s.mem := rfl
@[simp] theorem State.writeDt_v (b : Byte) : (s.writeDt b).v = s.v := rfl
@[simp] theorem State.writeDt_i (b : Byte) : (s.writeDt b).i = s.i := rfl
@[simp] theorem State.writeDt_pc (b : Byte) : (s.writeDt b).pc = s.pc := rfl
@[simp] theorem State.writeDt_stack (b : Byte) : (s.writeDt b).stack = s.stack := rfl
@[simp] theorem State.writeDt_dt (b : Byte) : (s.writeDt b).dt = b := rfl
@[simp] theorem State.writeDt_st (b : Byte) : (s.writeDt b).st = s.st := rfl
@[simp] theorem State.writeDt_key (b : Byte) : (s.writeDt b).key = s.key := rfl
@[simp] theorem State.writeDt_prevKey (b : Byte) : (s.writeDt b).prevKey = s.prevKey := rfl
@[simp] theorem State.writeDt_waitingForKey (b : Byte) : (s.writeDt b).waitingForKey = s.waitingForKey := rfl
@[simp] theorem State.writeDt_fb (b : Byte) : (s.writeDt b).fb = s.fb := rfl
@[simp] theorem State.writeDt_stopped (b : Byte) : (s.writeDt b).stopped = s.stopped := rfl
@[simp] theorem State.writeDt_fault (b : Byte) : (s.writeDt b).fault = s.fault := rfl
@[simp] theorem State.writeDt_draws (b : Byte) : (s.writeDt b).draws = s.draws := rfl

@[simp] theorem State.writeSt_mem (b : Byte) : (s.writeSt b).mem = s.mem := rfl
@[simp] theorem State.writeSt_v (b : Byte) : (s.writeSt b).v = s.v := rfl
@[simp] theorem State.writeSt_i (b : Byte) : (s.writeSt b).i = s.i := rfl
@[simp] theorem State.writeSt_pc (b : Byte) : (s.writeSt b).pc = s.pc := rfl
@[simp] theorem State.writeSt_stack (b : Byte) : (s.writeSt b).stack = s.stack := rfl
@[simp] theorem State.writeSt_dt (b : Byte) : (s.writeSt b).dt = s.dt := rfl
@[simp] theorem State.writeSt_st (b : Byte) : (s.writeSt b).st = b := rfl
@[simp] theorem State.writeSt_key (b : Byte) : (s.writeSt b).key = s.key := rfl
@[simp] theorem State.writeSt_prevKey (b : Byte) : (s.writeSt b).prevKey = s.prevKey := rfl
@[simp] theorem State.writeSt_waitingForKey (b : Byte) : (s.writeSt b).waitingForKey = s.waitingForKey := rfl
@[simp] theorem State.writeSt_fb (b : Byte) : (s.writeSt b).fb = s.fb := rfl
@[simp] theorem State.writeSt_stopped (b : Byte) : (s.writeSt b).stopped = s.stopped := rfl
@[simp] theorem State.writeSt_fault (b : Byte) : (s.writeSt b).fault = s.fault := rfl
@[simp] theorem State.writeSt_draws (b : Byte) : (s.writeSt b).draws = s.draws := rfl

@[simp] theorem State.writeMem_mem (a : Nat) (bytes : List Byte) : (s.writeMem a bytes).mem = s.mem.store a bytes := rfl
@[simp] theorem State.writeMem_v (a : Nat) (bytes : List Byte) : (s.writeMem a bytes).v = s.v := rfl
@[simp] theorem State.writeMem_i (a : Nat) (bytes : List Byte) : (s.writeMem a bytes).i = s.i := rfl
@[simp] theorem State.writeMem_pc (a : Nat) (bytes : List Byte) : (s.writeMem a bytes).pc = s.pc := rfl
@[simp] theorem State.writeMem_stack (a : Nat) (bytes : List Byte) : (s.writeMem a bytes).stack = s.stack := rfl
@[simp] theorem State.writeMem_dt (a : Nat) (bytes : List Byte) : (s.writeMem a bytes).dt = s.dt := rfl
@[simp] theorem State.writeMem_st (a : Nat) (bytes : List Byte) : (s.writeMem a bytes).st = s.st := rfl
@[simp] theorem State.writeMem_key (a : Nat) (bytes : List Byte) : (s.writeMem a bytes).key = s.key := rfl
@[simp] theorem State.writeMem_prevKey (a : Nat) (bytes : List Byte) : (s.writeMem a bytes).prevKey = s.prevKey := rfl
@[simp] theorem State.writeMem_waitingForKey (a : Nat) (bytes : List Byte) : (s.writeMem a bytes).waitingForKey = s.waitingForKey := rfl
@[simp] theorem State.writeMem_fb (a : Nat) (bytes : List Byte) : (s.writeMem a bytes).fb = s.fb := rfl
@[simp] theorem State.writeMem_stopped (a : Nat) (bytes : List Byte) : (s.writeMem a bytes).stopped = s.stopped := rfl
@[simp] theorem State.writeMem_fault (a : Nat) (bytes : List Byte) : (s.writeMem a bytes).fault = s.fault := rfl
@[simp] theorem State.writeMem_draws (a : Nat) (bytes : List Byte) : (s.writeMem a bytes).draws = s.draws := rfl

@[simp] theorem State.writeFb_mem (f : Framebuffer) : (s.writeFb f).mem = s.mem := rfl
@[simp] theorem State.writeFb_v (f : Framebuffer) : (s.writeFb f).v = s.v := rfl
@[simp] theorem State.writeFb_i (f : Framebuffer) : (s.writeFb f).i = s.i := rfl
@[simp] theorem State.writeFb_pc (f : Framebuffer) : (s.writeFb f).pc = s.pc := rfl
@[simp] theorem State.writeFb_stack (f : Framebuffer) : (s.writeFb f).stack = s.stack := rfl
@[simp] theorem State.writeFb_dt (f : Framebuffer) : (s.writeFb f).dt = s.dt := rfl
@[simp] theorem State.writeFb_st (f : Framebuffer) : (s.writeFb f).st = s.st := rfl
@[simp] theorem State.writeFb_key (f : Framebuffer) : (s.writeFb f).key = s.key := rfl
@[simp] theorem State.writeFb_prevKey (f : Framebuffer) : (s.writeFb f).prevKey = s.prevKey := rfl
@[simp] theorem State.writeFb_waitingForKey (f : Framebuffer) : (s.writeFb f).waitingForKey = s.waitingForKey := rfl
@[simp] theorem State.writeFb_fb (f : Framebuffer) : (s.writeFb f).fb = f := rfl
@[simp] theorem State.writeFb_stopped (f : Framebuffer) : (s.writeFb f).stopped = s.stopped := rfl
@[simp] theorem State.writeFb_fault (f : Framebuffer) : (s.writeFb f).fault = s.fault := rfl
@[simp] theorem State.writeFb_draws (f : Framebuffer) : (s.writeFb f).draws = s.draws := rfl

@[simp] theorem State.snapshotKeys_mem : s.snapshotKeys.mem = s.mem := rfl
@[simp] theorem State.snapshotKeys_v : s.snapshotKeys.v = s.v := rfl
@[simp] theorem State.snapshotKeys_i : s.snapshotKeys.i = s.i := rfl
@[simp] theorem State.snapshotKeys_pc : s.snapshotKeys.pc = s.pc := rfl
@[simp] theorem State.snapshotKeys_stack : s.snapshotKeys.stack = s.stack := rfl
@[simp] theorem State.snapshotKeys_dt : s.snapshotKeys.dt = s.dt := rfl
@[simp] theorem State.snapshotKeys_st : s.snapshotKeys.st = s.st := rfl
@[simp] theorem State.snapshotKeys_key : s.snapshotKeys.key = s.key := rfl
@[simp] theorem State.snapshotKeys_prevKey : s.snapshotKeys.prevKey = s.key := rfl
@[simp] theorem State.snapshotKeys_waitingForKey : s.snapshotKeys.waitingForKey = true := rfl
@[simp] theorem State.snapshotKeys_fb : s.snapshotKeys.fb = s.fb := rfl
@[simp] theorem State.snapshotKeys_stopped : s.snapshotKeys.stopped = s.stopped := rfl
@[simp] theorem State.snapshotKeys_fault : s.snapshotKeys.fault = s.fault := rfl
@[simp] theorem State.snapshotKeys_draws : s.snapshotKeys.draws = s.draws := rfl

@[simp] theorem State.endWait_mem : s.endWait.mem = s.mem := rfl
@[simp] theorem State.endWait_v : s.endWait.v = s.v := rfl
@[simp] theorem State.endWait_i : s.endWait.i = s.i := rfl
@[simp] theorem State.endWait_pc : s.endWait.pc = s.pc := rfl
@[simp] theorem State.endWait_stack : s.endWait.stack = s.stack := rfl
@[simp] theorem State.endWait_dt : s.endWait.dt = s.dt := rfl
@[simp] theorem State.endWait_st : s.endWait.st = s.st := rfl
@[simp] theorem State.endWait_key : s.endWait.key = s.key := rfl
@[simp] theorem State.endWait_prevKey : s.endWait.prevKey = s.prevKey := rfl
@[simp] theorem State.endWait_waitingForKey : s.endWait.waitingForKey = false := rfl
@[simp] theorem State.endWait_fb : s.endWait.fb = s.fb := rfl
@[simp] theorem State.endWait_stopped : s.endWait.stopped = s.stopped := rfl
@[simp] theorem State.endWait_fault : s.endWait.fault = s.fault := rfl
@[simp] theorem State.endWait_draws : s.endWait.draws = s.draws := rfl

@[simp] theorem State.countDraw_mem : s.countDraw.mem = s.mem := rfl
@[simp] theorem State.countDraw_v : s.countDraw.v = s.v := rfl
@[simp] theorem State.countDraw_i : s.countDraw.i = s.i := rfl
@[simp] theorem State.countDraw_pc : s.countDraw.pc = s.pc := rfl
@[simp] theorem State.countDraw_stack : s.countDraw.stack = s.stack := rfl
@[simp] theorem State.countDraw_dt : s.countDraw.dt = s.dt := rfl
@[simp] theorem State.countDraw_st : s.countDraw.st = s.st := rfl
@[simp] theorem State.countDraw_key : s.countDraw.key = s.key := rfl
@[simp] theorem State.countDraw_prevKey : s.countDraw.prevKey = s.prevKey := rfl
@[simp] theorem State.countDraw_waitingForKey : s.countDraw.waitingForKey = s.waitingForKey := rfl
@[simp] theorem State.countDraw_fb : s.countDraw.fb = s.fb := rfl
@[simp] theorem State.countDraw_stopped : s.countDraw.stopped = s.stopped := rfl
@[simp] theorem State.countDraw_fault : s.countDraw.fault = s.fault := rfl
@[simp] theorem State.countDraw_draws : s.countDraw.draws = s.draws + 1 := rfl

@[simp] theorem State.takeFault_mem (kind : FaultKind) (op : Option Word) : (s.takeFault kind op).mem = s.mem := rfl
@[simp] theorem State.takeFault_v (kind : FaultKind) (op : Option Word) : (s.takeFault kind op).v = s.v := rfl
@[simp] theorem State.takeFault_i (kind : FaultKind) (op : Option Word) : (s.takeFault kind op).i = s.i := rfl
@[simp] theorem State.takeFault_pc (kind : FaultKind) (op : Option Word) : (s.takeFault kind op).pc = s.pc := rfl
@[simp] theorem State.takeFault_stack (kind : FaultKind) (op : Option Word) : (s.takeFault kind op).stack = s.stack := rfl
@[simp] theorem State.takeFault_dt (kind : FaultKind) (op : Option Word) : (s.takeFault kind op).dt = s.dt := rfl
@[simp] theorem State.takeFault_st (kind : FaultKind) (op : Option Word) : (s.takeFault kind op).st = s.st := rfl
@[simp] theorem State.takeFault_key (kind : FaultKind) (op : Option Word) : (s.takeFault kind op).key = s.key := rfl
@[simp] theorem State.takeFault_prevKey (kind : FaultKind) (op : Option Word) : (s.takeFault kind op).prevKey = s.prevKey := rfl
@[simp] theorem State.takeFault_waitingForKey (kind : FaultKind) (op : Option Word) : (s.takeFault kind op).waitingForKey = s.waitingForKey := rfl
@[simp] theorem State.takeFault_fb (kind : FaultKind) (op : Option Word) : (s.takeFault kind op).fb = s.fb := rfl
@[simp] theorem State.takeFault_stopped (kind : FaultKind) (op : Option Word) : (s.takeFault kind op).stopped = true := rfl
@[simp] theorem State.takeFault_fault (kind : FaultKind) (op : Option Word) : (s.takeFault kind op).fault = some { kind := kind, opcode := op, pc := s.pc } := rfl
@[simp] theorem State.takeFault_draws (kind : FaultKind) (op : Option Word) : (s.takeFault kind op).draws = s.draws := rfl

@[simp] theorem setKeyState_mem (c : Key) (d : Bool) : (setKeyState c d s).mem = s.mem := rfl
@[simp] theorem setKeyState_v (c : Key) (d : Bool) : (setKeyState c d s).v = s.v := rfl
@[simp] theorem setKeyState_i (c : Key) (d : Bool) : (setKeyState c d s).i = s.i := rfl
@[simp] theorem setKeyState_pc (c : Key) (d : Bool) : (setKeyState c d s).pc = s.pc := rfl
@[simp] theorem setKeyState_stack (c : Key) (d : Bool) : (setKeyState c d s).stack = s.stack := rfl
@[simp] theorem setKeyState_dt (c : Key) (d : Bool) : (setKeyState c d s).dt = s.dt := rfl
@[simp] theorem setKeyState_st (c : Key) (d : Bool) : (setKeyState c d s).st = s.st := rfl
@[simp] theorem setKeyState_key (c : Key) (d : Bool) : (setKeyState c d s).key = s.key.set c d := rfl
@[simp] theorem setKeyState_prevKey (c : Key) (d : Bool) : (setKeyState c d s).prevKey = s.prevKey := rfl
@[simp] theorem setKeyState_waitingForKey (c : Key) (d : Bool) : (setKeyState c d s).waitingForKey = s.waitingForKey := rfl
@[simp] theorem setKeyState_fb (c : Key) (d : Bool) : (setKeyState c d s).fb = s.fb := rfl
@[simp] theorem setKeyState_stopped (c : Key) (d : Bool) : (setKeyState c d s).stopped = s.stopped := rfl
@[simp] theorem setKeyState_fault (c : Key) (d : Bool) : (setKeyState c d s).fault = s.fault := rfl
@[simp] theorem setKeyState_draws (c : Key) (d : Bool) : (setKeyState c d s).draws = s.draws := rfl

@[simp] theorem stop_mem : (stop s).mem = s.mem := rfl
@[simp] theorem stop_v : (stop s).v = s.v := rfl
@[simp] theorem stop_i : (stop s).i = s.i := rfl
@[simp] theorem stop_pc : (stop s).pc = s.pc := rfl
@[simp] theorem stop_stack : (stop s).stack = s.stack := rfl
@[simp] theorem stop_dt : (stop s).dt = s.dt := rfl
@[simp] theorem stop_st : (stop s).st = s.st := rfl
@[simp] theorem stop_key : (stop s).key = s.key := rfl
@[simp] theorem stop_prevKey : (stop s).prevKey = s.prevKey := rfl
@[simp] theorem stop_waitingForKey : (stop s).waitingForKey = s.waitingForKey := rfl
@[simp] theorem stop_fb : (stop s).fb = s.fb := rfl
@[simp] theorem stop_stopped : (stop s).stopped = true := rfl
@[simp] theorem stop_fault : (stop s).fault = s.fault := rfl
@[simp] theorem stop_draws : (stop s).draws = s.draws := rfl

@[simp] theorem tick_mem : (tick s).mem = s.mem := rfl
@[simp] theorem tick_v : (tick s).v = s.v := rfl
@[simp] theorem tick_i : (tick s).i = s.i := rfl
@[simp] theorem tick_pc : (tick s).pc = s.pc := rfl
@[simp] theorem tick_stack : (tick s).stack = s.stack := rfl
@[simp] theorem tick_dt : (tick s).dt = decay s.dt := rfl
@[simp] theorem tick_st : (tick s).st = decay s.st := rfl
@[simp] theorem tick_key : (tick s).key = s.key := rfl
@[simp] theorem tick_prevKey : (tick s).prevKey = s.prevKey := rfl
@[simp] theorem tick_waitingForKey : (tick s).waitingForKey = s.waitingForKey := rfl
@[simp] theorem tick_fb : (tick s).fb = s.fb := rfl
@[simp] theorem tick_stopped : (tick s).stopped = s.stopped := rfl
@[simp] theorem tick_fault : (tick s).fault = s.fault := rfl
@[simp] theorem tick_draws : (tick s).draws = s.draws := rfl

@[simp] theorem State.writeI_readV (a : Word) (r : Reg) : (s.writeI a).readV r = s.readV r := rfl
@[simp] theorem State.jump_readV (target : Word) (r : Reg) : (s.jump target).readV r = s.readV r := rfl
@[simp] theorem State.advance_readV (k : Word) (r : Reg) : (s.advance k).readV r = s.readV r := rfl
@[simp] theorem State.writeStack_readV (l : List Word) (r : Reg) : (s.writeStack l).readV r = s.readV r := rfl
@[simp] theorem State.writeDt_readV (b : Byte) (r : Reg) : (s.writeDt b).readV r = s.readV r := rfl
@[simp] theorem State.writeSt_readV (b : Byte) (r : Reg) : (s.writeSt b).readV r = s.readV r := rfl
@[simp] theorem State.writeMem_readV (a : Nat) (bytes : List Byte) (r : Reg) : (s.writeMem a bytes).readV r = s.readV r := rfl
@[simp] theorem State.writeFb_readV (f : Framebuffer) (r : Reg) : (s.writeFb f).readV r = s.readV r := rfl
@[simp] theorem State.snapshotKeys_readV (r : Reg) : s.snapshotKeys.readV r = s.readV r := rfl
@[simp] theorem State.endWait_readV (r : Reg) : s.endWait.readV r = s.readV r := rfl
@[simp] theorem State.countDraw_readV (r : Reg) : s.countDraw.readV r = s.readV r := rfl
@[simp] theorem State.takeFault_readV (kind : FaultKind) (op : Option Word) (r : Reg) : (s.takeFault kind op).readV r = s.readV r := rfl

/-- A written register reads as written, every other as before (R21). -/
@[simp] theorem State.writeV_readV (x r : Reg) (b : Byte) :
    (s.writeV x b).readV r = if r = x then b else s.readV r := by
  unfold State.readV State.writeV
  simp only [Vector.get_eq_getElem, Vector.getElem_set]
  by_cases h : r = x
  · simp [h]
  · rw [if_neg h, if_neg fun e : x.val = r.val => h (Fin.ext e.symm)]

/-- A block written from register `k` on sets the registers it has a byte for and leaves the others (R286). -/
theorem writeRegs_get (bytes : List Byte) (v : Vector Byte 16) (k : Nat) (r : Reg) :
    (writeRegs v k bytes).get r = if k ≤ r.val then bytes.getD (r.val - k) (v.get r) else v.get r := by
  induction bytes generalizing v k with
  | nil => simp [writeRegs]
  | cons b bs ih =>
    rw [writeRegs, ih]
    simp only [Vector.get_eq_getElem, Vector.getElem_setIfInBounds]
    rcases Nat.lt_trichotomy k r.val with e | e | e
    · obtain ⟨d, hd⟩ : ∃ d, r.val = k + 1 + d := ⟨r.val - (k + 1), by omega⟩
      rw [if_pos (by omega), if_neg (by omega), if_pos (by omega),
        show r.val - (k + 1) = d by omega, show r.val - k = d + 1 by omega]
      rfl
    · rw [if_neg (by omega), if_pos e, if_pos (by omega), show r.val - k = 0 by omega]
      rfl
    · rw [if_neg (by omega), if_neg (by omega), if_neg (by omega)]

/-- A block write sets the registers it has a byte for and leaves the others (R286). -/
@[simp] theorem State.writeBlock_readV (bytes : List Byte) (r : Reg) :
    (s.writeBlock bytes).readV r = bytes.getD r.val (s.readV r) := by
  simp [State.readV, State.writeBlock, writeRegs_get]

/-- `skip_if` moves `PC` by 4 or by 2 and nothing else (R151). -/
theorem State.skipIf_eq (c : Bool) : s.skipIf c = { s with pc := s.pc + if c then 4 else 2 } := by
  cases c <;> rfl

/-- A guarded instruction faults, or has its effect (R13). -/
theorem State.faultOr_cases (check : Option FaultKind) (i : Instr) (effect : State) :
    (∃ kind, check = some kind ∧ s.faultOr check i effect = s.takeFault kind (some (encode i))) ∨
      (check = none ∧ s.faultOr check i effect = effect) := by
  cases check with
  | none => exact .inr ⟨rfl, rfl⟩
  | some kind => exact .inl ⟨kind, rfl, rfl⟩

@[simp] theorem State.faultOr_none (i : Instr) (effect : State) : s.faultOr none i effect = effect := rfl

@[simp] theorem State.faultOr_some (kind : FaultKind) (i : Instr) (effect : State) :
    s.faultOr (some kind) i effect = s.takeFault kind (some (encode i)) := rfl

/-- Taking a fault latches `stopped` and records, and changes nothing else (R313, R314). -/
theorem State.takeFault_eq (kind : FaultKind) (op : Option Word) :
    s.takeFault kind op = { s with fault := some { kind := kind, opcode := op, pc := s.pc }, stopped := true } :=
  rfl

end Sys2Proof.Machine
end

