-- ==== Sys2Proof/Laws/Ops.lean ====
section
/-! SUPPORT. What the shared operands and the step can answer, said once. -/

namespace Sys2Proof.Machine

/-! ### Operands -/

/-- `keyOf` names a key exactly when the register's value is below 16 (R242). -/
theorem keyOf_of_lt {b : Byte} (h : b.toNat < 16) : keyOf b = some ⟨b.toNat, h⟩ := dif_pos h

/-- `keyOf` names none exactly when the value is above 15 (R242). -/
theorem keyOf_none_iff (b : Byte) : keyOf b = none ↔ 15 < b.toNat := by
  unfold keyOf
  split <;> simp <;> omega

@[simp] theorem State.length_readBlock (s : State) (x : Reg) : (s.readBlock x).length = blockSize x := by
  have : blockSize x ≤ 16 := x.isLt
  simp [State.readBlock, this]

/-- Byte `k` of the register block is `V[k]` (R285). -/
theorem State.getElem_readBlock (s : State) (x : Reg) {k : Nat} (h : k < blockSize x) :
    (s.readBlock x)[k]'(by simpa using h) =
      s.readV ⟨k, Nat.lt_of_lt_of_le h x.isLt⟩ := by
  simp [State.readBlock, State.readV, Vector.get_eq_getElem]

/-- `firstEdge` is the lowest key with a down edge (R244). -/
theorem State.firstEdge_eq_some_iff (s : State) (k : Key) :
    s.firstEdge = some k ↔
      (s.prevKey.get k = false ∧ s.key.get k = true) ∧
        ∀ j < k, ¬(s.prevKey.get j = false ∧ s.key.get j = true) := by
  unfold State.firstEdge
  rw [List.find?_eq_some_iff_getElem]
  constructor
  · rintro ⟨hk, n, hn, rfl, before⟩
    refine ⟨by simpa using hk, fun j hj e => ?_⟩
    have hjn : j.val < n := by simpa [Fin.lt_def] using hj
    have := before j.val hjn
    simp [e.1, e.2] at this
  · rintro ⟨hk, before⟩
    refine ⟨by simp [hk.1, hk.2], k.val, by simp, by simp, fun j hj => ?_⟩
    have := before ⟨j, Nat.lt_trans hj k.isLt⟩ (by simpa [Fin.lt_def] using hj)
    simp only [List.getElem_finRange, Fin.cast_mk]
    revert this
    cases s.prevKey.get ⟨j, Nat.lt_trans hj k.isLt⟩ <;> cases s.key.get ⟨j, Nat.lt_trans hj k.isLt⟩ <;> simp

/-- `firstEdge` finds nothing exactly when no key has a down edge (R244). -/
theorem State.firstEdge_eq_none_iff (s : State) :
    s.firstEdge = none ↔ ∀ k, ¬(s.prevKey.get k = false ∧ s.key.get k = true) := by
  unfold State.firstEdge
  rw [List.find?_eq_none]
  constructor
  · intro h k e
    simpa [e.1, e.2] using h k (List.mem_finRange k)
  · intro h k _
    have := h k
    revert this
    cases s.prevKey.get k <;> cases s.key.get k <;> simp

/-! ### Fetch and step -/

/-- A fetch is allowed exactly at an even `PC` of at most 0xFFE (R124, R125). -/
theorem State.fetchFault_none_iff (s : State) :
    s.fetchFault = none ↔ s.pc.toNat % 2 = 0 ∧ s.pc.toNat ≤ 0xFFE := by
  have odd : s.pc.getLsbD 0 = decide (s.pc.toNat % 2 = 1) := by
    simp [BitVec.getLsbD, Nat.testBit_zero]
  unfold State.fetchFault
  rw [odd]
  split_ifs <;> simp_all

/-- Which fetch fault an unfetchable `PC` raises: the odd one first (R315). -/
theorem State.fetchFault_some_iff (s : State) (kind : FaultKind) :
    s.fetchFault = some kind ↔
      (kind = .misalignedFetch ∧ s.pc.toNat % 2 = 1) ∨
        (kind = .fetchOutOfRange ∧ s.pc.toNat % 2 = 0 ∧ 0xFFE < s.pc.toNat) := by
  have odd : s.pc.getLsbD 0 = decide (s.pc.toNat % 2 = 1) := by
    simp [BitVec.getLsbD, Nat.testBit_zero]
  unfold State.fetchFault
  rw [odd]
  split_ifs <;> cases kind <;> simp_all

/-- Everything one step can do (R133): nothing when stopped; a fetch fault; an unknown word; or the
instruction at `PC`. -/
theorem step_cases {s t : State} (h : step s = .next t) :
    (s.stopped = true ∧ t = s) ∨
    (s.stopped = false ∧ ∃ kind, s.fetchFault = some kind ∧ t = s.takeFault kind none) ∨
    (s.stopped = false ∧ s.fetchFault = none ∧ (∃ e, decode s.fetchWord = .error e) ∧
      t = s.takeFault .unknownInstruction (some s.fetchWord)) ∨
    (∃ i, s.Executes i ∧ exec i s = .next t) := by
  unfold step at h
  by_cases hs : s.stopped = true
  · rw [if_pos hs] at h
    exact .inl ⟨hs, by injection h with e; exact e.symm⟩
  · rw [if_neg hs] at h
    rw [Bool.not_eq_true] at hs
    cases hf : s.fetchFault with
    | some kind =>
      rw [hf] at h
      injection h with e
      exact .inr (.inl ⟨hs, kind, rfl, e.symm⟩)
    | none =>
      rw [hf] at h
      cases hd : decode s.fetchWord with
      | error e =>
        rw [hd] at h
        injection h with e'
        exact .inr (.inr (.inl ⟨hs, rfl, ⟨e, rfl⟩, e'.symm⟩))
      | ok i =>
        rw [hd] at h
        exact .inr (.inr (.inr ⟨i, ⟨hs, hf, hd⟩, h⟩))

/-- `withFetchWord` makes the very next step run its word, from every state (log 8). -/
theorem State.readyToFetch_runs (s : State) :
    s.readyToFetch.stopped = false ∧ s.readyToFetch.fetchFault = none := by
  unfold State.readyToFetch
  cases hs : s.stopped <;> cases hf : s.fetchFault <;> simp_all [State.fetchFault, programBase]

/-! ### What an instruction can do to the fault state and to memory -/

/-- Either no fault is due and `stopped` and `fault` stay, or the one that is due is taken (R310, R313). -/
theorem exec_fault_cases (i : Instr) (s t : State) (h : exec i s = .next t) :
    (instrFaultDue s i = none ∧ t.stopped = s.stopped ∧ t.fault = s.fault) ∨
    ∃ k, instrFaultDue s i = some k ∧ t = s.takeFault k (some (encode i)) := by
  cases i
  all_goals (injection h with h; subst h)
  case ret =>
    by_cases hs : s.stack = []
    · right; exact ⟨.stackUnderflow, by simp [instrFaultDue, hs], by simp [hs]⟩
    · left; refine ⟨by simp [instrFaultDue, hs], ?_⟩
      rw [List.getLast?_eq_some_getLast hs]; exact ⟨rfl, rfl⟩
  case call nnn =>
    by_cases hs : s.stack.length = 16
    · right; exact ⟨.stackOverflow, by simp [instrFaultDue, hs], by simp [hs]⟩
    · left; simp [instrFaultDue, hs]
  case seByte => left; simp [State.skipIf_eq, instrFaultDue]
  case sneByte => left; simp [State.skipIf_eq, instrFaultDue]
  case seReg => left; simp [State.skipIf_eq, instrFaultDue]
  case sneReg => left; simp [State.skipIf_eq, instrFaultDue]
  case skp x =>
    by_cases hk : 15 < (s.readV x).toNat
    · right; refine ⟨.keyIndexOutOfRange, by simp [instrFaultDue, hk], ?_⟩
      simp only [State.skipOnKey, (keyOf_none_iff _).2 hk]
    · left; refine ⟨by simp [instrFaultDue]; omega, ?_⟩
      simp only [State.skipOnKey, keyOf_of_lt (show (s.readV x).toNat < 16 by omega), State.skipIf_eq]; simp
  case sknp x =>
    by_cases hk : 15 < (s.readV x).toNat
    · right; refine ⟨.keyIndexOutOfRange, by simp [instrFaultDue, hk], ?_⟩
      simp only [State.skipOnKey, (keyOf_none_iff _).2 hk]
    · left; refine ⟨by simp [instrFaultDue]; omega, ?_⟩
      simp only [State.skipOnKey, keyOf_of_lt (show (s.readV x).toNat < 16 by omega), State.skipIf_eq]; simp
  case ldVxK => left; refine ⟨rfl, ?_⟩; split; (split <;> exact ⟨rfl, rfl⟩); exact ⟨rfl, rfl⟩
  case drw x y n =>
    unfold instrFaultDue State.dataAddr rangeFault memSize
    by_cases hc : 0 < n.val ∧ 0x1000 < s.i.toNat + n.val
    · right; simp [hc]
    · left; have := hc; simp only [if_neg hc, State.faultOr_none]; simp [State.showDrawing]
  case ldVxMem x =>
    simp only [instrFaultDue, State.dataAddr, rangeFault, memSize, blockSize]
    by_cases hc : 0x1000 < s.i.toNat + (x.val + 1)
    · right; simp [hc]
    · left; simp [hc]
  case ldBVx x =>
    simp only [instrFaultDue, State.dataAddr, storeFault, rangeFault, memSize]
    by_cases hc : 0x1000 < s.i.toNat + 3
    · right; simp [hc]
    · by_cases hd : s.i.toNat < 80
      · right; simp [hc, hd]
      · left; simp [hc, hd]
  case ldMemVx x =>
    simp only [instrFaultDue, State.dataAddr, storeFault, rangeFault, memSize, blockSize]
    by_cases hc : 0x1000 < s.i.toNat + (x.val + 1)
    · right; simp [hc]
    · by_cases hd : s.i.toNat < 80
      · right; simp [hc, hd]
      · left; simp [hc, hd]
  all_goals exact .inl ⟨rfl, rfl, rfl⟩

/-- Memory stays, or a block that passed its checks is stored at `I` by one of the two stores (R60, R280). -/
theorem exec_mem_cases {i : Instr} {s t : State} (h : exec i s = .next t) : t.mem = s.mem ∨ ∃ (bs : List Byte), storeFault s.dataAddr bs.length = none ∧ 0 < bs.length ∧ t.mem = s.mem.store s.dataAddr bs ∧ ((∃ x, i = .ldBVx x) ∨ ∃ x, i = .ldMemVx x) := by
  cases i
  all_goals (injection h with h; subst h)
  case ldBVx x =>
    rcases State.faultOr_cases s (storeFault s.dataAddr 3) (.ldBVx x) ((s.writeMem s.dataAddr (bcdDigits (s.readV x))).advance 2) with ⟨k, -, h⟩ | ⟨hc, h⟩
    · left; rw [h]; rfl
    · right; exact ⟨bcdDigits (s.readV x), hc, by simp [bcdDigits], by rw [h]; rfl, .inl ⟨x, rfl⟩⟩
  case ldMemVx x =>
    rcases State.faultOr_cases s (storeFault s.dataAddr (blockSize x)) (.ldMemVx x) (((s.writeMem s.dataAddr (s.readBlock x)).writeI (s.nextI x)).advance 2) with ⟨k, -, h⟩ | ⟨hc, h⟩
    · left; rw [h]; rfl
    · right; exact ⟨s.readBlock x, by simpa using hc, by simp [blockSize], by rw [h]; rfl, .inr ⟨x, rfl⟩⟩
  all_goals left
  all_goals first
          | rfl
          | (simp only [State.skipIf_eq])
          | (simp only [State.skipOnKey, State.skipIf_eq, State.readV]; split <;> rfl)
          | (simp only [State.faultOr]; split <;> rfl)
          | (split <;> (first | rfl | (split <;> rfl)))

/-- Where an instruction executes, the step is that instruction (R133). -/
theorem step_of_executes {s : State} {i : Instr} (h : s.Executes i) : step s = exec i s := by
  simp [step, h.1, h.2.1, h.2.2]

/-- Past an instruction that advanced `PC` by 2 to a fetchable place, the next fetch reads memory as the
instruction left it, and the next step runs that word (R75, R126). -/
theorem fetch_after_advance {s t : State} (hp : t.pc = s.pc + 2) (hs : t.stopped = s.stopped)
    (h : s.pc.toNat + 2 ≤ 0xFFE) :
    t.fetchWord = t.mem.read (s.pc.toNat + 2) ++ t.mem.read (s.pc.toNat + 3) ∧
      (s.stopped = false → s.pc.toNat % 2 = 0 → ∀ i, decode t.fetchWord = .ok i → step t = exec i t) := by
  have hpn : t.pc.toNat = s.pc.toNat + 2 := by
    rw [hp, BitVec.toNat_add]
    exact Nat.mod_eq_of_lt (by show s.pc.toNat + 2 < 65536; omega)
  refine ⟨by simp only [State.fetchWord, wordOfBytes, hpn], fun h1 h2 i hd => ?_⟩
  exact step_of_executes ⟨hs.trans h1, (State.fetchFault_none_iff t).2 ⟨by omega, by omega⟩, hd⟩

/-- One step more of a run. -/
theorem core_run_succ (n : Nat) {s t : State} (h : step s = .next t) : Sys2Proof.core.run (n + 1) s = Sys2Proof.core.run n t := by
  simp only [Host.Core.run, show Sys2Proof.core.step s = .next t from h]

/-! ### Values -/

/-- A written key reads as written, every other as before (R240). -/
theorem setKeyState_get (s : State) (c : Key) (d : Bool) (j : Key) : (setKeyState c d s).key.get j = if j = c then d else s.key.get j := by
  simp only [setKeyState, Vector.get_eq_getElem, Vector.getElem_set]
  by_cases h : j = c
  · simp [h]
  · rw [if_neg h, if_neg fun e : c.val = j.val => h (Fin.ext e.symm)]

/-- A flag is 1 or 0 (R28). -/
theorem flagByte_toNat (b : Bool) : (flagByte b).toNat = if b then 1 else 0 := by cases b <;> rfl

/-- `I` after a block move (R285, R286). -/
theorem State.nextI_toNat (s : State) (x : Reg) : (s.nextI x).toNat = (s.i.toNat + (x.val + 1)) % 0x10000 := by
  simp [State.nextI, blockSize]

/-- The stored block reads back as the registers (R285). -/
theorem Memory.read_store_readBlock {m : Memory} (h : m.wf = true) (s : State) (x r : Reg) (hr : r ≤ x) (a : Nat) (ha : a + (x.val+1) ≤ 0x1000) :
   (m.store a (s.readBlock x)).read (a + r.val) = s.readV r := by
  have hb : r.val < blockSize x := by simp only [blockSize, Fin.le_def] at *; omega
  rw [Memory.read_store_inside h (s.readBlock x) (by simpa [blockSize, memSize] using ha) (k := r.val) (by simpa using hb)]
  exact State.getElem_readBlock s x hb

end Sys2Proof.Machine
end

