-- ==== Sys2Proof/Laws/PerInstr.lean ====
section
/-! SUPPORT. One lemma per instruction: its encoding has the fixed bits of its row of
spec/opcode_table.json (30_encoding.md R91, R94). -/

namespace Sys2Proof.Laws.EncodingFitsTable

/-- The encoded word has the fixed bits of the instruction's row. -/
def Statement (i : Instr) : Prop := (opcodeRow i).accepts (encode i) = true

/-- A kept nibble. -/
theorem and_F (a : BitVec 4) : a &&& 0xF#4 = a := by revert a; decide

/-- A kept byte. -/
theorem and_FF (a : BitVec 8) : a &&& 0xFF#8 = a := by revert a; decide

/-- Format `NNN`: the family is fixed. -/
theorem accepts_nnn (op : BitVec 4) (nnn : Addr12) (v : Word) (h : v = op ++ 0#12) :
    OpcodeRow.accepts ⟨0xF000, v⟩ (encodeNnn op nnn) = true := by
  subst h
  refine decide_eq_true (?_ : (op ++ nnn) &&& (0xF#4 ++ 0#12) = op ++ 0#12)
  rw [BitVec.and_append, BitVec.and_zero, and_F]

/-- Format `XKK`: the family is fixed. -/
theorem accepts_xkk (op : BitVec 4) (x : Reg) (kk : Byte) (v : Word) (h : v = op ++ 0#4 ++ 0#8) :
    OpcodeRow.accepts ⟨0xF000, v⟩ (encodeXkk op x kk) = true := by
  subst h
  refine decide_eq_true (?_ : (op ++ nibble x ++ kk) &&& (0xF#4 ++ 0#4 ++ 0#8) = op ++ 0#4 ++ 0#8)
  simp only [BitVec.and_append, BitVec.and_zero, and_F]

/-- Format `XS8`: the family and the low byte are fixed. -/
theorem accepts_xs8 (op : BitVec 4) (x : Reg) (kk : Byte) (v : Word) (h : v = op ++ 0#4 ++ kk) :
    OpcodeRow.accepts ⟨0xF0FF, v⟩ (encodeXkk op x kk) = true := by
  subst h
  refine decide_eq_true (?_ : (op ++ nibble x ++ kk) &&& (0xF#4 ++ 0#4 ++ 0xFF#8) = op ++ 0#4 ++ kk)
  simp only [BitVec.and_append, BitVec.and_zero, and_F, and_FF]

/-- Format `XYS`: the family and the function nibble are fixed. -/
theorem accepts_xys (op : BitVec 4) (x y n : Fin 16) (v : Word) (h : v = op ++ 0#4 ++ 0#4 ++ nibble n) :
    OpcodeRow.accepts ⟨0xF00F, v⟩ (encodeXyn op x y n) = true := by
  subst h
  refine decide_eq_true (?_ : (op ++ nibble x ++ nibble y ++ nibble n) &&& (0xF#4 ++ 0#4 ++ 0#4 ++ 0xF#4) =
    op ++ 0#4 ++ 0#4 ++ nibble n)
  simp only [BitVec.and_append, BitVec.and_zero, and_F]

/-- Format `XYN`: the family is fixed. -/
theorem accepts_xyn (op : BitVec 4) (x y n : Fin 16) (v : Word) (h : v = op ++ 0#4 ++ 0#4 ++ 0#4) :
    OpcodeRow.accepts ⟨0xF000, v⟩ (encodeXyn op x y n) = true := by
  subst h
  refine decide_eq_true (?_ : (op ++ nibble x ++ nibble y ++ nibble n) &&& (0xF#4 ++ 0#4 ++ 0#4 ++ 0#4) =
    op ++ 0#4 ++ 0#4 ++ 0#4)
  simp only [BitVec.and_append, BitVec.and_zero, and_F]

theorem cls : Statement .cls := rfl
theorem ret : Statement .ret := rfl
theorem jp (nnn : Addr12) : Statement (.jp nnn) := accepts_nnn _ nnn _ rfl
theorem call (nnn : Addr12) : Statement (.call nnn) := accepts_nnn _ nnn _ rfl
theorem seByte (x : Reg) (kk : Byte) : Statement (.seByte x kk) := accepts_xkk _ x kk _ rfl
theorem sneByte (x : Reg) (kk : Byte) : Statement (.sneByte x kk) := accepts_xkk _ x kk _ rfl
theorem seReg (x y : Reg) : Statement (.seReg x y) := accepts_xys _ x y _ _ rfl
theorem ldByte (x : Reg) (kk : Byte) : Statement (.ldByte x kk) := accepts_xkk _ x kk _ rfl
theorem addByte (x : Reg) (kk : Byte) : Statement (.addByte x kk) := accepts_xkk _ x kk _ rfl
theorem ldReg (x y : Reg) : Statement (.ldReg x y) := accepts_xys _ x y _ _ rfl
theorem orReg (x y : Reg) : Statement (.orReg x y) := accepts_xys _ x y _ _ rfl
theorem andReg (x y : Reg) : Statement (.andReg x y) := accepts_xys _ x y _ _ rfl
theorem xorReg (x y : Reg) : Statement (.xorReg x y) := accepts_xys _ x y _ _ rfl
theorem addReg (x y : Reg) : Statement (.addReg x y) := accepts_xys _ x y _ _ rfl
theorem sub (x y : Reg) : Statement (.sub x y) := accepts_xys _ x y _ _ rfl
theorem shr (x y : Reg) : Statement (.shr x y) := accepts_xys _ x y _ _ rfl
theorem subn (x y : Reg) : Statement (.subn x y) := accepts_xys _ x y _ _ rfl
theorem shl (x y : Reg) : Statement (.shl x y) := accepts_xys _ x y _ _ rfl
theorem sneReg (x y : Reg) : Statement (.sneReg x y) := accepts_xys _ x y _ _ rfl
theorem ldI (nnn : Addr12) : Statement (.ldI nnn) := accepts_nnn _ nnn _ rfl
theorem jpV0 (nnn : Addr12) : Statement (.jpV0 nnn) := accepts_nnn _ nnn _ rfl
theorem rnd (x : Reg) (kk : Byte) : Statement (.rnd x kk) := accepts_xkk _ x kk _ rfl
theorem drw (x y : Reg) (n : Fin 16) : Statement (.drw x y n) := accepts_xyn _ x y n _ rfl
theorem skp (x : Reg) : Statement (.skp x) := accepts_xs8 _ x _ _ rfl
theorem sknp (x : Reg) : Statement (.sknp x) := accepts_xs8 _ x _ _ rfl
theorem ldVxDt (x : Reg) : Statement (.ldVxDt x) := accepts_xs8 _ x _ _ rfl
theorem ldVxK (x : Reg) : Statement (.ldVxK x) := accepts_xs8 _ x _ _ rfl
theorem ldDtVx (x : Reg) : Statement (.ldDtVx x) := accepts_xs8 _ x _ _ rfl
theorem ldStVx (x : Reg) : Statement (.ldStVx x) := accepts_xs8 _ x _ _ rfl
theorem addIVx (x : Reg) : Statement (.addIVx x) := accepts_xs8 _ x _ _ rfl
theorem ldFVx (x : Reg) : Statement (.ldFVx x) := accepts_xs8 _ x _ _ rfl
theorem ldBVx (x : Reg) : Statement (.ldBVx x) := accepts_xs8 _ x _ _ rfl
theorem ldMemVx (x : Reg) : Statement (.ldMemVx x) := accepts_xs8 _ x _ _ rfl
theorem ldVxMem (x : Reg) : Statement (.ldVxMem x) := accepts_xs8 _ x _ _ rfl

end Sys2Proof.Laws.EncodingFitsTable
end

