-- ==== Sys2Proof/Tests/Slice0.lean ====
section
/-! SUPPORT. Tests of one step each, their expected values from the spec's vectors (95_test_vectors.md
T<n>, O<n>), the words of R94 written out, what WellFormed refuses, and a witness for the hypotheses of
every statement that has some. -/

namespace Sys2Proof.Machine.Tests

/-! ### Helpers -/

/-- `s` with `w` at `PC`. -/
def put (w : Word) (s : State) : State := s.writeMem s.pc.toNat (wordBytes w)

/-- What `w` at `PC` leaves, if the step answers a next state. -/
def after (w : Word) (s : State) : Option State :=
  match step (put w s) with
  | .next t => some t
  | .fault _ => none
  | .refused _ => none

/-- A result satisfies a test. -/
def has (r : Option State) (p : State → Bool) : Bool := r.any p

/-- The base state of the vectors, without its font. -/
abbrev base : State := State.reset

/-- The base state with registers `V0`, `V1`, `V2` and `VF`. -/
def regs (v0 v1 v2 vf : Byte) : State := (((base.writeV 0 v0).writeV 1 v1).writeV 2 v2).writeV 15 vf

/-- Registers `V1`, `VF` and the `PC`. -/
def v1vf (v1 vf : Byte) (pc : Word) (s : State) : Bool := s.readV 1 = v1 && s.readV 15 = vf && s.pc = pc

/-- The fault record, with the machine stopped. -/
def faulted (kind : FaultKind) (opcode : Option Word) (pc : Word) (s : State) : Bool :=
  s.stopped && s.fault = some ⟨kind, opcode, pc⟩ && s.pc = pc

/-- A stack of `n` return addresses. -/
def deep (n : Nat) : State := base.writeStack (List.replicate n 0x202)

/-- The base state with one key down. -/
def down (k : Key) (s : State) : State := setKeyState k true s

/-! ### Decoding: a word of every row, from the patterns of R94 -/

/-- The word decodes to the instruction, which encodes back to it and has its row's fixed bits. -/
def spells (w : Nat) (i : Instr) : Bool :=
  decodeTableWord 16 w = some i && (encode i).toNat = w && (opcodeRow i).accepts (encode i)

theorem test_decode_control_and_immediate :
    spells 0x00E0 .cls ∧ spells 0x00EE .ret ∧ spells 0x1228 (.jp 0x228) ∧
    spells 0x2300 (.call 0x300) ∧ spells 0x3342 (.seByte 3 0x42) ∧ spells 0x4342 (.sneByte 3 0x42) ∧
    spells 0x5120 (.seReg 1 2) ∧ spells 0x6A2F (.ldByte 10 0x2F) ∧ spells 0x7120 (.addByte 1 0x20) := by decide

theorem test_decode_alu :
    spells 0x8120 (.ldReg 1 2) ∧ spells 0x8121 (.orReg 1 2) ∧ spells 0x8122 (.andReg 1 2) ∧
    spells 0x8123 (.xorReg 1 2) ∧ spells 0x8F24 (.addReg 15 2) ∧ spells 0x81F5 (.sub 1 15) ∧
    spells 0x8126 (.shr 1 2) ∧ spells 0x8127 (.subn 1 2) ∧ spells 0x812E (.shl 1 2) := by decide

theorem test_decode_index_draw_keys :
    spells 0x9120 (.sneReg 1 2) ∧ spells 0xA2F0 (.ldI 0x2F0) ∧ spells 0xBFFE (.jpV0 0xFFE) ∧
    spells 0xC30F (.rnd 3 0x0F) ∧ spells 0xD01F (.drw 0 1 15) ∧ spells 0xE19E (.skp 1) ∧
    spells 0xE1A1 (.sknp 1) := by decide

theorem test_decode_timers_and_memory :
    spells 0xF507 (.ldVxDt 5) ∧ spells 0xF30A (.ldVxK 3) ∧ spells 0xF515 (.ldDtVx 5) ∧
    spells 0xF518 (.ldStVx 5) ∧ spells 0xF21E (.addIVx 2) ∧ spells 0xFF29 (.ldFVx 15) ∧
    spells 0xF133 (.ldBVx 1) ∧ spells 0xF255 (.ldMemVx 2) ∧ spells 0xFF65 (.ldVxMem 15) := by decide

/-- Neighbours of the 34 patterns (the words of R101 in T6 to T19). -/
def illegal : List Nat :=
  [0x0000, 0x0123, 0x00E1, 0x00FF, 0x5121, 0x8128, 0x812D, 0x812F, 0x9121, 0xE19F, 0xE1A2, 0xF100, 0xF10B, 0xF1FF]

theorem test_illegal_words_are_refused : illegal.all (fun w => decodeTableWord 16 w = none) = true := by decide
theorem test_one_byte_is_no_instruction : decodeBytes [0x60] = .error .truncated := by decide
theorem test_the_rest_of_the_bytes_is_kept : decodeBytes [0x6A, 0x2F, 0x12] = .ok (.ldByte 10 0x2F, [0x12]) := by decide

/-- A step answers a next state and stops nothing. -/
def runs (w : Nat) : Bool :=
  match step (State.reset.withFetchWord 16 w) with
  | .next _ => true
  | .fault _ => false
  | .refused _ => false

/-- The words above. -/
def rowWords : List Nat :=
  [0x00E0, 0x00EE, 0x1228, 0x2300, 0x3342, 0x4342, 0x5120, 0x6A2F, 0x7120,
   0x8120, 0x8121, 0x8122, 0x8123, 0x8F24, 0x81F5, 0x8126, 0x8127, 0x812E,
   0x9120, 0xA2F0, 0xBFFE, 0xC30F, 0xD01F, 0xE19E, 0xE1A1, 0xF507, 0xF30A,
   0xF515, 0xF518, 0xF21E, 0xFF29, 0xF133, 0xF255, 0xFF65]

theorem test_every_row_runs_first : rowWords.all runs = true := by decide

/-! ### WellFormed refuses -/

theorem test_wellFormed_word : wellFormedWord 0x8126 = true := by decide
theorem test_ill_formed_words : illegal.all (fun w => !wellFormedWord (BitVec.ofNat 16 w)) = true := by decide
theorem test_wellFormed_image : wellFormedImage (List.replicate 3584 0x12) = true := by
  rw [wellFormedImage, List.length_replicate]; rfl
theorem test_ill_formed_image : wellFormedImage (List.replicate 3585 0x12) = false := by
  rw [wellFormedImage, List.length_replicate]; rfl
theorem test_wellFormed_keyCode : wellFormedKeyCode 15 = true := by decide
theorem test_ill_formed_keyCode : wellFormedKeyCode 16 = false := by decide

/-! ### Fetch and dispatch -/

theorem test_T1_T3_odd_pc :
    has (after 0 { base with pc := 0x201 }) (faulted .misalignedFetch none 0x201) ∧
    has (after 0 { base with pc := 0xFFFF }) (faulted .misalignedFetch none 0xFFFF) := by decide
theorem test_T2_fetch_out_of_range : has (after 0 { base with pc := 0x1000 }) (faulted .fetchOutOfRange none 0x1000) := by
  decide
theorem test_T4_highest_fetch : has (after 0x1200 { base with pc := 0xFFE }) (·.pc = 0x200) := by decide
theorem test_T5_stopped : has (after 0x6105 { base with stopped := true }) (v1vf 0 0 0x200) := by decide
theorem test_T10_unknown_word : has (after 0x5121 (regs 0 5 0 0)) (faulted .unknownInstruction (some 0x5121) 0x200) := by
  decide

/-! ### Control transfer -/

theorem test_T31_ret : has (after 0x00EE (base.writeStack [0x202, 0x40A])) (fun s => s.pc = 0x40A && s.stack = [0x202]) := by
  decide
theorem test_T32_ret_underflow : has (after 0x00EE base) (faulted .stackUnderflow (some 0x00EE) 0x200) := by decide
theorem test_T35_jp : has (after 0x1FFF base) (·.pc = 0xFFF) := by decide
theorem test_T39_call : has (after 0x2200 { base with pc := 0xFFE }) (fun s => s.pc = 0x200 && s.stack = [0x1000]) := by decide
theorem test_T37_T38_call_depth :
    has (after 0x2300 (deep 15)) (fun s => s.pc = 0x300 && s.stack.length = 16) ∧
    has (after 0x2300 (deep 16)) (faulted .stackOverflow (some 0x2300) 0x200) := by decide
theorem test_T44_se_byte : has (after 0x3000 { base with pc := 0xFFC }) (·.pc = 0x1000) := by decide
theorem test_T45_T46_sne_byte :
    has (after 0x4142 (regs 0 0x42 0 0)) (·.pc = 0x202) ∧ has (after 0x4100 (regs 0 0x42 0 0)) (·.pc = 0x204) := by decide
theorem test_T47_T48_se_reg :
    has (after 0x5120 (regs 0 7 7 0)) (·.pc = 0x204) ∧ has (after 0x5120 (regs 0 7 8 0)) (·.pc = 0x202) := by decide
theorem test_T50_T51_sne_reg :
    has (after 0x9120 (regs 0 7 8 0)) (·.pc = 0x204) ∧ has (after 0x9110 (regs 0 9 0 0)) (·.pc = 0x202) := by decide
theorem test_T53_T55_jp_v0 :
    has (after 0xBF02 (regs 0xFF 0 0 0)) (·.pc = 0x1001) ∧ has (after 0xB123 (regs 0 0x40 0 0)) (·.pc = 0x123) := by decide

/-! ### Registers and ALU -/

theorem test_T60_ld_byte : has (after 0x6A2F base) (fun s => s.readV 10 = 0x2F && s.pc = 0x202) := by decide
theorem test_T62_add_byte : has (after 0x7120 (regs 0 0xF0 0 5)) (v1vf 0x10 5 0x202) := by decide
theorem test_T65_ld_reg : has (after 0x8120 (regs 0 0 0x55 0)) (v1vf 0x55 0 0x202) := by decide
theorem test_T67_or : has (after 0x8121 (regs 0 0x0F 0xF0 7)) (v1vf 0xFF 7 0x202) := by decide
theorem test_T68_and : has (after 0x8122 (regs 0 0x3C 0x0F 0)) (v1vf 0x0C 0 0x202) := by decide
theorem test_T69_xor : has (after 0x8123 (regs 0 0x3C 0x0F 0)) (v1vf 0x33 0 0x202) := by decide
theorem test_T71_add : has (after 0x8124 (regs 0 0xC8 0x64 0)) (v1vf 0x2C 1 0x202) := by decide
theorem test_T75_T76_add_vf :
    has (after 0x8F14 (regs 0 2 0 0xFF)) (v1vf 2 1 0x202) ∧ has (after 0x81F4 (regs 0 0x10 0 0x20)) (v1vf 0x30 0 0x202) := by
  decide
theorem test_T77_T79_sub :
    has (after 0x8125 (regs 0 5 0x0A 0)) (v1vf 0xFB 0 0x202) ∧ has (after 0x8125 (regs 0 7 7 0)) (v1vf 0 1 0x202) := by decide
theorem test_T81_T82_sub_vf :
    has (after 0x8F15 (regs 0 3 0 0x10)) (v1vf 3 0x0D 0x202) ∧ has (after 0x81F5 (regs 0 5 0 3)) (v1vf 2 1 0x202) := by decide
theorem test_T83_T85_shr :
    v1vf 2 1 0x202 (base.shiftRight 1 (shiftOperandOf Config.defaultShiftSource 0 5)) ∧
    v1vf 0x40 1 0x202 (base.shiftRight 1 (shiftOperandOf .vx 0x81 0)) := by decide
theorem test_T86_T87_shr :
    has (after 0x8116 (regs 0 3 0 0)) (fun s => s.pc = 0x202) ∧
    (base.shiftRight 15 (shiftOperandOf .vy 0 5)).readV 15 = 2 := by decide
theorem test_T89_T90_subn :
    has (after 0x8127 (regs 0 0x0A 5 0)) (v1vf 0xFB 0 0x202) ∧ has (after 0x8127 (regs 0 5 0x0A 0)) (v1vf 5 1 0x202) := by decide
theorem test_T93_T94_shl :
    v1vf 2 1 0x202 (base.shiftLeft 1 (shiftOperandOf .vy 0 0x81)) ∧
    v1vf 0x80 0 0x202 (base.shiftLeft 1 (shiftOperandOf .vx 0x40 0x81)) := by decide
theorem test_T97_rnd : (base.maskRandom 3 0x0F 0xA7).readV 3 = 0x07 := by decide
theorem test_T98_rnd_mask_zero : (base.maskRandom 3 0x00 0xFF).readV 3 = 0 ∧ (base.maskRandom 3 0 0xFF).pc = 0x202 := by decide

/-! ### Timers -/

theorem test_T110_ld_vx_dt : has (after 0xF107 { base with dt := 0x3C }) (v1vf 0x3C 0 0x202) := by decide
theorem test_T112_ld_dt_vx : has (after 0xF115 (regs 0 0x78 0 0)) (fun s => s.dt = 0x78 && s.st = 0 && s.pc = 0x202) := by decide
theorem test_T114_ld_st_vx : has (after 0xF118 (regs 0 5 0 0)) (fun s => s.st = 5 && s.dt = 0 && s.pc = 0x202) := by decide
theorem test_T115_T102_tick :
    (tick { base with dt := 255, st := 61 }).dt = 195 ∧ (tick { base with dt := 255, st := 61 }).st = 1 ∧
    (tick { base with dt := 61, st := 120 }).dt = 1 ∧ (tick { base with dt := 60, st := 59 }).st = 0 := by decide

/-! ### Keypad -/

theorem test_T120_T121_skp :
    has (after 0xE19E (down 5 (regs 0 5 0 0))) (·.pc = 0x204) ∧
    has (after 0xE19E (down 4 (regs 0 5 0 0))) (·.pc = 0x202) := by decide
theorem test_T122_skp_no_key : has (after 0xE19E (regs 0 0x10 0 0)) (faulted .keyIndexOutOfRange (some 0xE19E) 0x200) := by decide
theorem test_T123_T124_sknp :
    has (after 0xE1A1 (regs 0 5 0 0)) (·.pc = 0x204) ∧
    has (after 0xE1A1 (down 5 (regs 0 5 0 0))) (·.pc = 0x202) := by decide
theorem test_T125_sknp_no_key : has (after 0xE1A1 (regs 0 0xFF 0 0)) (faulted .keyIndexOutOfRange (some 0xE1A1) 0x200) := by decide
theorem test_T126_T129_ld_vx_k :
    has (after 0xF30A (down 2 base)) (fun s => s.waitingForKey && s.prevKey.get 2 && s.pc = 0x200) ∧
    has (after 0xF30A (down 3 (down 9 { base with waitingForKey := true })))
      (fun s => !s.waitingForKey && s.readV 3 = 3 && s.pc = 0x202) := by decide
theorem test_T131_ld_vx_k_release :
    has (after 0xF30A { base with waitingForKey := true, prevKey := base.prevKey.set 4 true })
      (fun s => s.waitingForKey && !s.prevKey.get 4 && s.pc = 0x200) := by decide

/-! ### Display -/

/-- A framebuffer with the named pixels set. -/
def lit (pixels : List (Fin 64 × Fin 32)) : Framebuffer :=
  pixels.foldl (fun f p => f.toggle p.1 p.2) Framebuffer.clear

theorem test_T140_cls : has (after 0x00E0 (base.writeFb (lit [(63, 31), (10, 10)])))
    (fun s => !s.fb.pixel 63 31 && !s.fb.pixel 10 10 && s.pc = 0x202) := by decide
/-- The base state with the default FONT of R62 listed in memory. -/
def withFont : State := { base with mem := (List.range 80).zip Config.defaultFont }

theorem test_T141_drw_glyph :
    has (after 0xD015 withFont)
      (fun s => s.fb.pixel 0 4 && s.fb.pixel 3 0 && s.fb.pixel 3 1 && !s.fb.pixel 1 1 && !s.fb.pixel 4 0 && s.readV 15 = 0) := by
  decide
theorem test_T143_T149_drw_wraps_and_collides :
    has (after 0xD012 (((regs 0x3F 0x1F 0 0).writeMem 0x300 [0xC0, 0x80]).writeI 0x300))
      (fun s => s.fb.pixel 63 31 && s.fb.pixel 0 31 && s.fb.pixel 63 0 && !s.fb.pixel 0 0 && s.readV 15 = 0) ∧
    has (after 0xD011 ((((regs 5 5 0 0).writeMem 0x300 [0xC0]).writeI 0x300).writeFb (lit [(5, 5), (7, 5)])))
      (fun s => !s.fb.pixel 5 5 && s.fb.pixel 6 5 && s.fb.pixel 7 5 && s.readV 15 = 1 && s.pc = 0x202) := by decide

/-! ### Index register and memory -/

theorem test_T160_ld_i : has (after 0xA2F0 base) (fun s => s.i = 0x2F0 && s.pc = 0x202) := by decide
theorem test_T162_T163_add_i :
    has (after 0xF21E ((regs 0 0 3 0).writeI 0xFFE)) (fun s => s.i = 0x1001 && s.readV 15 = 1) ∧
    has (after 0xF21E ((regs 0 0 0 1).writeI 0xFFF)) (fun s => s.i = 0xFFF && s.readV 15 = 0) := by decide
theorem test_T166_add_i_vf : has (after 0xFF1E ((regs 0 0 0 0x10).writeI 0xFF8)) (fun s => s.i = 0x1008 && s.readV 15 = 1) := by
  decide
theorem test_T168_ld_f : has (after 0xF129 (regs 0 0x3A 0 0)) (fun s => s.i = 0x032 && s.pc = 0x202) := by decide
theorem test_T173_bcd :
    has (after 0xF133 ((regs 0 0x2A 0 0).writeI 0xFFD))
      (fun s => s.mem.load 0xFFD 3 = [0, 4, 2] && s.i = 0xFFD && s.pc = 0x202) := by decide
theorem test_T174_T175_bcd_faults :
    has (after 0xF133 (base.writeI 0xFFE)) (faulted .dataOutOfRange (some 0xF133) 0x200) ∧
    has (after 0xF133 (base.writeI 0x04F)) (faulted .protectedWrite (some 0xF133) 0x200) := by decide
theorem test_T177_block_store :
    has (after 0xF255 ((regs 0x11 0x22 0x33 0).writeI 0x300))
      (fun s => s.mem.load 0x300 4 = [0x11, 0x22, 0x33, 0] && s.i = 0x303 && s.pc = 0x202) := by decide
theorem test_T180_T181_block_store_faults :
    has (after 0xFF55 (base.writeI 0xFF1)) (faulted .dataOutOfRange (some 0xFF55) 0x200) ∧
    has (after 0xF055 (base.writeI 0x04F)) (faulted .protectedWrite (some 0xF055) 0x200) := by decide
theorem test_T184_block_load :
    has (after 0xF165 (((regs 0 0 7 0).writeMem 0x300 [0x11, 0x22, 0x33]).writeI 0x300))
      (fun s => s.readV 0 = 0x11 && s.readV 1 = 0x22 && s.readV 2 = 7 && s.i = 0x302 && s.pc = 0x202) := by decide
theorem test_T188_block_load_fault :
    has (after 0xF165 (base.writeI 0xFFF)) (faulted .dataOutOfRange (some 0xF165) 0x200) := by decide

/-! ### Host operations -/

theorem test_W4_load_then_jump :
    (loadProgram (some [0x12, 0x28]) base).1 = true ∧ (loadProgram (some [0x12, 0x28]) base).2.pc = 0x200 ∧
    has (after 0x1228 (loadProgram (some [0x12, 0x28]) base).2) (·.pc = 0x228) := by decide
theorem test_O1_load_keeps_the_keys :
    (loadProgram (some [0x12, 0x00]) (down 4 (regs 1 2 3 4))).2.key.get 4 = true ∧
    (loadProgram (some [0x12, 0x00]) (down 4 (regs 1 2 3 4))).2.readV 2 = 0 := by decide

/-! ### Witnesses: concrete states and operands that meet the hypotheses of a statement, clause by clause -/

/-- The state after an instruction that has one. -/
def ran (i : Instr) (s : State) : State :=
  match exec i s with
  | .next t => t
  | .fault _ => s
  | .refused _ => s

/-- The state after a step that has one. -/
def stepped (s : State) : State :=
  match step s with
  | .next t => t
  | .fault _ => s
  | .refused _ => s

/-- A state whose next word is `w`. -/
abbrev about (w : Word) : State := put w base

/-- A state that waits for a key, key 2 down since before the wait, key 7 down since the last step. -/
def waiting : State := down 7 { down 2 (put 0xF30A base) with waitingForKey := true, prevKey := base.prevKey.set 2 true }

/-- A state that waits and has seen key 2 down. -/
def waited : State := { down 2 (put 0xF30A base) with waitingForKey := true, prevKey := base.prevKey.set 2 true }

theorem witness_EncodeOfDecodeIsTheWord : decode 0x8F2E = .ok (.shl 0xF 0x2) := by decide
theorem witness_DecodeAcceptsExactlyTheTable : decode 0xF065 = .ok (.ldVxMem 0) := by decide

theorem witness_StepRunsTheDecodedInstruction :
    ∃ (s : State) (i : Instr), s.stopped = false ∧ s.pc.toNat % 2 = 0 ∧ s.pc.toNat ≤ 0xFFE ∧
      decode (s.mem.read s.pc.toNat ++ s.mem.read (s.pc.toNat + 1)) = .ok i :=
  ⟨put 0x6A2F { base with pc := 0xFFE }, .ldByte 10 0x2F, by decide⟩

theorem witness_StepWhenNothingExecutes_stopped : ({ base with stopped := true } : State).stopped = true := rfl
theorem witness_StepWhenNothingExecutes_odd :
    ∃ s : State, s.stopped = false ∧ s.pc.toNat % 2 = 1 := ⟨{ base with pc := 0xFFFF }, by decide⟩
theorem witness_StepWhenNothingExecutes_range :
    ∃ s : State, s.stopped = false ∧ s.pc.toNat % 2 = 0 ∧ 0xFFE < s.pc.toNat := ⟨{ base with pc := 0x1000 }, by decide⟩
theorem witness_StepWhenNothingExecutes_unknown :
    ∃ (s : State) (w : Word) (e : Reject), s.stopped = false ∧ s.pc.toNat % 2 = 0 ∧ s.pc.toNat ≤ 0xFFE ∧
      w = s.mem.read s.pc.toNat ++ s.mem.read (s.pc.toNat + 1) ∧ decode w = .error e :=
  ⟨put 0x5121 { base with pc := 0xFFE }, 0x5121, .unknown 0x5121, by decide⟩

theorem witness_FaultsArePrecise :
    ∃ s t : State, s.stopped = false ∧ step s = .next t ∧ t.stopped = true :=
  ⟨about 0x00EE, stepped (about 0x00EE), by decide, rfl, by decide⟩

theorem witness_FaultRaisedExactlyWhenDue_due :
    ∃ s t : State, s.stopped = false ∧ step s = .next t ∧ s.faultDue = some .stackUnderflow :=
  ⟨about 0x00EE, stepped (about 0x00EE), by decide, rfl, by decide⟩
theorem witness_FaultRaisedExactlyWhenDue_none :
    ∃ s t : State, s.stopped = false ∧ step s = .next t ∧ s.faultDue = none :=
  ⟨about 0x6A2F, stepped (about 0x6A2F), by decide, rfl, by decide⟩

/-- What the two statements about the next fetch ask of a state for a store of `len` bytes. -/
abbrev storesBeforeFetch (s : State) (len : Nat) : Prop :=
  s.mem.wf = true ∧ 0x050 ≤ s.dataAddr ∧ s.dataAddr + len ≤ 0x1000 ∧ s.pc.toNat + 2 ≤ 0xFFE ∧
    s.stopped = false ∧ s.pc.toNat % 2 = 0

theorem witness_NextFetchSeesTheBlockStore_both_bytes :
    ∃ s : State, storesBeforeFetch s 2 ∧ s.pc.toNat + 2 = s.dataAddr + (0 : Reg).val ∧
      s.pc.toNat + 3 = s.dataAddr + (1 : Reg).val ∧ decode (s.readV 0 ++ s.readV 1) = .ok (.ldByte 10 0x2F) :=
  ⟨(regs 0x6A 0x2F 0 0).writeI 0x202, by decide⟩
theorem witness_NextFetchSeesTheBlockStore_high_byte :
    ∃ s : State, storesBeforeFetch s 1 ∧ s.pc.toNat + 2 = s.dataAddr + (0 : Reg).val ∧ s.dataAddr + 1 ≤ s.pc.toNat + 3 ∧
      decode (s.readV 0 ++ s.mem.read (s.pc.toNat + 3)) = .ok (.ldByte 10 0x2F) :=
  ⟨((regs 0x6A 0 0 0).writeI 0x202).writeMem 0x202 [0x12, 0x2F], by decide⟩
theorem witness_NextFetchSeesTheBlockStore_low_byte :
    ∃ s : State, storesBeforeFetch s 1 ∧ s.pc.toNat + 2 < s.dataAddr ∧ s.pc.toNat + 3 = s.dataAddr + (0 : Reg).val ∧
      decode (s.mem.read (s.pc.toNat + 2) ++ s.readV 0) = .ok (.ldByte 10 0x2F) :=
  ⟨({ regs 0x2F 0 0 0 with pc := 0xFFC }.writeI 0xFFF).writeMem 0xFFE [0x6A, 0x12], by decide⟩

theorem witness_NextFetchSeesTheBcdStore_first_digits :
    ∃ s : State, storesBeforeFetch s 3 ∧ s.pc.toNat + 2 = s.dataAddr ∧ s.pc.toNat + 3 = s.dataAddr + 1 :=
  ⟨base.writeI 0x202, by decide⟩
theorem witness_NextFetchSeesTheBcdStore_last_digits :
    ∃ s : State, storesBeforeFetch s 3 ∧ s.pc.toNat + 2 = s.dataAddr + 1 ∧ s.pc.toNat + 3 = s.dataAddr + 2 :=
  ⟨{ base with pc := 0xFFC }.writeI 0xFFD, by decide⟩
theorem witness_NextFetchSeesTheBcdStore_high_byte :
    ∃ s : State, storesBeforeFetch s 3 ∧ s.pc.toNat + 2 = s.dataAddr + 2 ∧ s.dataAddr + 3 ≤ s.pc.toNat + 3 ∧
      decode (BitVec.ofNat 8 ((s.readV 1).toNat % 10) ++ s.mem.read (s.pc.toNat + 3)) = .ok .cls :=
  ⟨((regs 0 20 0 0).writeI 0x200).writeMem 0x203 [0xE0], by decide⟩
theorem witness_NextFetchSeesTheBcdStore_low_byte :
    ∃ s : State, storesBeforeFetch s 3 ∧ s.pc.toNat + 2 < s.dataAddr ∧ s.pc.toNat + 3 = s.dataAddr ∧
      decode (s.mem.read (s.pc.toNat + 2) ++ BitVec.ofNat 8 ((s.readV 1).toNat / 100)) = .ok (.ldByte 10 2) :=
  ⟨((regs 0 255 0 0).writeI 0x203).writeMem 0x202 [0x6A], by decide⟩

theorem witness_ReturnPopsTheStack_pop : (base.writeStack [0x202, 0x40A]).stack = [0x202] ++ [0x40A] := rfl
theorem witness_ReturnPopsTheStack_empty : base.stack = [] := rfl
theorem witness_CallPushesTheReturnAddress : (deep 15).stack.length ≠ 16 ∧ (deep 16).stack.length = 16 := by decide
theorem witness_CallThenReturnComesBack : (deep 15).stack.length < 16 := by decide

theorem witness_OnlyCallAndReturnTouchTheStack :
    ∃ (i : Instr) (s t : State), i ≠ .ret ∧ (∀ nnn, i ≠ .call nnn) ∧ exec i s = .next t :=
  ⟨.ldByte 1 2, base, ran (.ldByte 1 2) base, by decide, by simp, rfl⟩

theorem witness_flag_register_or_not : (1 : Reg) ≠ flagReg ∧ (15 : Reg) = flagReg := by decide

theorem witness_ShiftsTakeTheShiftSource :
    ∃ (s : State) (x y : Reg) (src : Byte), src = (if Config.shiftSource = .vy then s.readV y else s.readV x) :=
  ⟨regs 0 3 5 0, 1, 2, _, rfl⟩

theorem witness_RegistersUnchangedExceptDestinations :
    ∃ (i : Instr) (s t : State) (r : Reg), exec i s = .next t ∧ ¬ writesRegister r i :=
  ⟨.ldVxMem 1, base.writeI 0x300, ran (.ldVxMem 1) (base.writeI 0x300), 2, rfl, by simp only [writesRegister]; decide⟩

theorem witness_TimersChangeOnlyByTheirWriters_tick :
    ∃ (op : HostOp) (s t : State), hostOp op s = .next t ∧ t.dt ≠ s.dt ∧ t.st ≠ s.st :=
  ⟨.tick, { base with dt := 61, st := 1 }, tick { base with dt := 61, st := 1 }, rfl, by decide⟩
theorem witness_TimersChangeOnlyByTheirWriters_step :
    ∃ (op : HostOp) (s t : State), hostOp op s = .next t ∧ t.dt ≠ s.dt :=
  ⟨.step, put 0xF115 (regs 0 9 0 0), stepped (put 0xF115 (regs 0 9 0 0)), rfl, by decide⟩

theorem witness_TimersAreReadByOneInstruction_reader :
    ∃ (i : Instr) (s t : State), exec i s = .next t ∧ (∃ x, i = .ldStVx x) :=
  ⟨.ldStVx 1, regs 0 9 0 0, ran (.ldStVx 1) (regs 0 9 0 0), rfl, 1, rfl⟩
theorem witness_TimersAreReadByOneInstruction_writer :
    ∃ (i : Instr) (s t : State), exec i s = .next t ∧ (∃ x, i = .ldDtVx x) :=
  ⟨.ldDtVx 1, regs 0 9 0 0, ran (.ldDtVx 1) (regs 0 9 0 0), rfl, 1, rfl⟩
theorem witness_TimersAreReadByOneInstruction_others :
    ∃ (i : Instr) (s t : State), exec i s = .next t ∧ (∀ x, i ≠ .ldStVx x) ∧ (∀ x, i ≠ .ldVxDt x) ∧ (∀ x, i ≠ .ldDtVx x) :=
  ⟨.cls, base, ran .cls base, rfl, by simp, by simp, by simp⟩

theorem witness_SkipsOnAKeyLevel :
    ((regs 0 15 0 0).readV 1).toNat = (15 : Key).val ∧ 15 < ((regs 0 16 0 0).readV 1).toNat := by decide

theorem witness_KeyWaitStateMachine_entry : (about 0xF30A).waitingForKey = false := rfl
theorem witness_KeyWaitStateMachine_no_edge :
    waited.waitingForKey = true ∧ ∀ k, ¬(waited.prevKey.get k = false ∧ waited.key.get k = true) := by decide
theorem witness_KeyWaitStateMachine_edge :
    waiting.waitingForKey = true ∧ waiting.prevKey.get 7 = false ∧ waiting.key.get 7 = true ∧
      ∀ j < (7 : Key), ¬(waiting.prevKey.get j = false ∧ waiting.key.get j = true) := by decide

theorem witness_OnlyKeyWaitTouchesTheWaitState :
    ∃ (i : Instr) (s t : State), exec i s = .next t ∧ ∀ x, i ≠ .ldVxK x :=
  ⟨.skp 1, waiting, ran (.skp 1) waiting, rfl, by simp⟩

theorem witness_SetKeyStateWritesOneKey : (15 : Nat) = (15 : Key).val ∧ 16 ≤ 16 := by decide

theorem witness_PressAfterASeenReleaseIsCaptured :
    ∃ (s : State) (x : Reg) (k : Key), s.Executes (.ldVxK x) ∧ s.waitingForKey = true ∧
      (∀ j, ¬(s.prevKey.get j = false ∧ s.key.get j = true)) ∧ s.key.get k = false :=
  ⟨waited, 3, 15, ⟨by decide, by decide, by decide⟩, by decide⟩

theorem witness_KeysHeldAtEntryAreNotCaptured :
    ∃ (s : State) (x : Reg), s.Executes (.ldVxK x) ∧ s.waitingForKey = false ∧ s.key.get 7 = true :=
  ⟨down 7 (about 0xF30A), 3, ⟨by decide, by decide, by decide⟩, by decide⟩

/-- A state with a sprite in the last bytes of memory, drawn over its own first pixel. -/
def lastSprite : State :=
  ((((regs 63 31 0 0).writeMem 0xFFE [0xC0, 0x80]).writeI 0xFFE).writeFb (lit [(63, 31)]))

theorem witness_DrawXorsTheSprite_in_range :
    lastSprite.dataAddr + (2 : Fin 16).val ≤ 0x1000 ∧ (0 : Fin 16).val = 0 := by decide
theorem witness_DrawXorsTheSprite_hit :
    lastSprite.spriteHits (lastSprite.readV 0) (lastSprite.readV 1) 2 63 31 ∧ lastSprite.fb.pixel 63 31 = true :=
  ⟨⟨0, 0, by decide⟩, by decide⟩
theorem witness_DrawXorsTheSprite_wrapped_hit :
    lastSprite.spriteHits (lastSprite.readV 0) (lastSprite.readV 1) 2 0 31 ∧ lastSprite.fb.pixel 0 31 = false :=
  ⟨⟨0, 1, by decide⟩, by decide⟩
theorem witness_DrawXorsTheSprite_out_of_range :
    0 < (3 : Fin 16).val ∧ 0x1000 < lastSprite.dataAddr + (3 : Fin 16).val := by decide

theorem witness_DrawXorsTheSprite_no_collision :
    ∀ px py, (base.writeI 0x300).spriteHits 0 0 1 px py → (base.writeI 0x300).fb.pixel px py = false :=
  fun px py _ => Framebuffer.pixel_clear px py

/-- A state with a sprite of one set bit, over the one pixel that is lit. -/
def oneDot : State := ((((regs 5 5 0 0).writeMem 0x300 [0x80]).writeI 0x300).writeFb (lit [(5, 5)]))

theorem witness_DrawingTwiceRestores_all_lit :
    oneDot.spriteHits (oneDot.readV 0) (oneDot.readV 1) 1 5 5 ∧
      ∀ px py, oneDot.spriteHits (oneDot.readV 0) (oneDot.readV 1) 1 px py → oneDot.fb.pixel px py = true := by
  refine ⟨⟨0, 0, by decide⟩, ?_⟩
  rintro px py ⟨row, col, hr, hc, hx, hy, hb⟩
  obtain rfl : row = 0 := by omega
  have only : ∀ c < 8, (oneDot.mem.read (oneDot.i.toNat + 0)).getLsbD (7 - c) = true → c = 0 := by decide
  obtain rfl := only col hc hb
  obtain rfl : px = 5 := Fin.ext (hx.trans (by decide))
  obtain rfl : py = 5 := Fin.ext (hy.trans (by decide))
  decide
theorem witness_DrawingTwiceRestores :
    ∃ t, exec (.drw 0 1 2) lastSprite = .next t ∧ t.readV 0 = lastSprite.readV 0 ∧ t.readV 1 = lastSprite.readV 1 :=
  ⟨ran (.drw 0 1 2) lastSprite, rfl, by decide⟩

theorem witness_OnlyClearAndDrawTouchTheFramebuffer :
    ∃ (i : Instr) (s t : State), i ≠ .cls ∧ (∀ x y n, i ≠ .drw x y n) ∧ exec i s = .next t :=
  ⟨.ldI 0x300, base, ran (.ldI 0x300) base, by decide, by simp, rfl⟩

theorem witness_ZeroSpriteDrawsNothing :
    ∃ (s : State) (n : Fin 16), n.val ≠ 0 ∧ s.dataAddr + n.val ≤ 0x1000 ∧ ∀ row < n.val, s.mem.read (s.dataAddr + row) = 0 :=
  ⟨base.writeI 0xFFE, 2, by decide⟩

theorem witness_BcdStoresThreeDigits :
    base.mem.wf = true ∧ 0x050 ≤ (base.writeI 0x050).dataAddr ∧ (base.writeI 0xFFD).dataAddr + 3 ≤ 0x1000 ∧
      0x1000 < (base.writeI 0xFFE).dataAddr + 3 ∧ (base.writeI 0x04F).dataAddr < 0x050 := by decide
theorem witness_BlockStore :
    base.mem.wf = true ∧ 0x050 ≤ (base.writeI 0x050).dataAddr ∧ (base.writeI 0xFF0).dataAddr + ((15 : Reg).val + 1) ≤ 0x1000 ∧
      0x1000 < (base.writeI 0xFF1).dataAddr + ((15 : Reg).val + 1) ∧ (base.writeI 0x04F).dataAddr < 0x050 := by decide
theorem witness_BlockLoad :
    (base.writeI 0xFFF).dataAddr + ((0 : Reg).val + 1) ≤ 0x1000 ∧
      0x1000 < (base.writeI 0xFFF).dataAddr + ((1 : Reg).val + 1) := by decide
theorem witness_StoreThenLoadRestoresRegisters :
    ∃ (x : Reg) (s : State), s.mem.wf = true ∧ 0x050 ≤ s.dataAddr ∧ s.dataAddr + (x.val + 1) ≤ 0x1000 :=
  ⟨15, (regs 1 2 3 4).writeI 0xFF0, by decide⟩

theorem witness_OnlyStoresWriteMemory :
    ∃ (i : Instr) (s t : State), exec i s = .next t ∧ (∀ x, i ≠ .ldBVx x) ∧ (∀ x, i ≠ .ldMemVx x) :=
  ⟨.ldVxMem 1, base.writeI 0x300, ran (.ldVxMem 1) (base.writeI 0x300), rfl, by simp, by simp⟩
theorem witness_OnlyStoresWriteMemory_store :
    ∃ (s t : State), exec (.ldMemVx 1) s = .next t ∧ s.mem.wf = true :=
  ⟨(regs 1 2 0 0).writeI 0x050, ran (.ldMemVx 1) ((regs 1 2 0 0).writeI 0x050), rfl, by decide⟩

theorem witness_IndexRegisterReadersAndWriters_write :
    ∃ (i : Instr) (s t : State), exec i s = .next t ∧ t.i ≠ s.i :=
  ⟨.ldI 0x300, base, ran (.ldI 0x300) base, rfl, by decide⟩
theorem witness_IndexRegisterReadersAndWriters_ignore :
    ∃ (i : Instr) (s t : State), exec i s = .next t ∧ (∀ x y n, i ≠ .drw x y n) ∧
      (∀ x, i ≠ .addIVx x ∧ i ≠ .ldBVx x ∧ i ≠ .ldMemVx x ∧ i ≠ .ldVxMem x) ∧ (∀ nnn, i ≠ .ldI nnn) ∧
      (∀ x, i ≠ .ldFVx x) :=
  ⟨.addReg 1 2, base, ran (.addReg 1 2) base, rfl, by simp, by simp, by simp, by simp⟩

theorem witness_CanonicalMemoriesAreEqual :
    ∃ m m' : Memory, m.wf = true ∧ m'.wf = true ∧ m ≠ [] ∧ ∀ a < 0x1000, m.read a = m'.read a :=
  ⟨[(0x300, 1)], [(0x300, 1)], by decide, by decide, by decide, fun _ _ => rfl⟩

theorem witness_LoadProgramResetsAndLoads :
    (List.replicate 3584 (0x12 : Byte)).length ≤ 3584 ∧ 3584 < (List.replicate 3585 (0x12 : Byte)).length := by
  rw [List.length_replicate, List.length_replicate]; decide

theorem witness_HostOperationsWriteOnlyTheirFields_pc :
    ∃ (op : HostOp) (s t : State), hostOp op s = .next t ∧ t.pc ≠ s.pc :=
  ⟨.loadProgram (some [0x12, 0x00]), { base with pc := 0x300 }, { base with pc := 0x300 }.loaded [0x12, 0x00], rfl, by decide⟩
theorem witness_HostOperationsWriteOnlyTheirFields_key :
    ∃ (s t : State), hostOp (.setKeyState 15 true) s = .next t := ⟨base, setKeyState 15 true base, rfl⟩

theorem witness_StoppedIsClearedOnlyByALoad :
    ∃ (op : HostOp) (s t : State), hostOp op s = .next t ∧ s.stopped = true ∧ t.stopped = false :=
  ⟨.loadProgram (some []), stop base, (stop base).loaded [], rfl, by decide⟩
theorem witness_StoppedIsClearedOnlyByALoad_success :
    loadProgram (some [0x12]) (stop base) = (true, (stop base).loaded [0x12]) := rfl
theorem witness_StoppedIsClearedOnlyByALoad_failure : loadProgram none (stop base) = (false, stop base) := rfl

theorem witness_PowerOnState : (79 : Nat) < 80 ∧ (80 : Nat) ≤ 80 ∧ (0xFFF : Nat) < 0x1000 := by decide

theorem witness_ParkedMachineStaysParked : (about 0x1200).Parked :=
  ⟨by decide, by decide, by decide, 0x200, by decide, by decide⟩

/-- A store past the font leaves the font as it was. -/
theorem fontIntact_put (w : Word) : (about w).fontIntact := by
  intro a h
  refine (Memory.read_store_outside Memory.wf_nil (wordBytes w) (a := 0x200) (by simp [wordBytes, memSize]) (.inl ?_)).trans ?_
  · have : a < 80 := h
    omega
  · simp [Memory.unlisted, h]

/-- A machine that waits for a key meets the invariant. -/
theorem inv_waiting : waiting.Inv :=
  { memWf := by decide, depth := by decide, font := fontIntact_put 0xF30A,
    waiting := fun _ => ⟨by decide, 3, by decide⟩, faulted := fun h => absurd rfl h }

theorem witness_HostOperationsKeepTheInvariant_step :
    ∃ s t : State, s.Inv ∧ s.waitingForKey = true ∧ hostOp .step s = .next t :=
  ⟨waiting, stepped waiting, inv_waiting, by decide, rfl⟩
theorem witness_HostOperationsKeepTheInvariant_load :
    ∃ s t : State, s.Inv ∧ hostOp (.loadProgram (some [0xF3, 0x0A])) s = .next t :=
  ⟨waiting, waiting.loaded [0xF3, 0x0A], inv_waiting, rfl⟩

theorem witness_ReachableStatesMeetTheInvariant : ∃ s : State, s.Reachable ∧ s.pc = 0x202 :=
  ⟨stepped (base.loaded [0x6A, 0x2F]), ⟨[.loadProgram (some [0x6A, 0x2F]), .step], rfl⟩, by decide⟩

end Sys2Proof.Machine.Tests
end

/-! PROOFS. What an instruction cannot see of the state (10_state.md), then the invariants of R38. -/

namespace Sys2Proof.Machine

/-! ### The two meanings that branch on what they read -/

/-- The two answers of a return (R153). -/
theorem exec_ret_iff {s t : State} :
    exec .ret s = .next t ↔
      (s.stack.getLast? = none ∧ t = s.takeFault .stackUnderflow (some (encode .ret))) ∨
      ∃ top, s.stack.getLast? = some top ∧ t = (s.writeStack s.stack.dropLast).jump top := by
  simp only [exec, execRet, Host.Outcome.next.injEq]
  cases s.stack.getLast? <;> simp [eq_comm]

/-- The three transitions of the key wait: it is entered, it goes on, or a key is captured (R244). -/
theorem exec_ldVxK_iff {x : Reg} {s t : State} :
    exec (.ldVxK x) s = .next t ↔
      (s.waitingForKey = false ∧ t = s.snapshotKeys) ∨
      (s.waitingForKey = true ∧ s.firstEdge = none ∧ t = s.snapshotKeys) ∨
      ∃ k, s.waitingForKey = true ∧ s.firstEdge = some k ∧
        t = (s.writeV x (BitVec.ofNat 8 k.val)).endWait.advance 2 := by
  simp only [exec, execLdVxK, Host.Outcome.next.injEq]
  cases s.waitingForKey
  · simp [eq_comm]
  · cases s.firstEdge <;> simp [eq_comm]

/-! ### Exchanging fields an instruction does not touch

Every statement of the form "no other instruction reads or writes this field" says that putting another
value into the field before the instruction is the same as putting it there afterwards. An `Exchange` names
the values to put in, `Exchange.spares` is the table of which instructions touch which field, and
`exec_exchange` proves the table once, for all fields together. -/

/-- New values for some of the fields that few instructions touch; `none` leaves a field as it is. -/
structure Exchange where
  stack : Option (List Word) := none
  dt : Option Byte := none
  st : Option Byte := none
  waiting : Option Bool := none
  prevKey : Option (Vector Bool 16) := none
  fb : Option Framebuffer := none
  i : Option Word := none

/-- The state with the new values put in. -/
def Exchange.apply (e : Exchange) (s : State) : State :=
  { s with
    stack := e.stack.getD s.stack, dt := e.dt.getD s.dt, st := e.st.getD s.st,
    waitingForKey := e.waiting.getD s.waitingForKey, prevKey := e.prevKey.getD s.prevKey,
    fb := e.fb.getD s.fb, i := e.i.getD s.i }

/-- The exchange leaves alone every field that the instruction reads or writes (R25 to R27, R31, R32). -/
def Exchange.spares (e : Exchange) : Instr → Prop
  | .ret | .call _ => e.stack = none
  | .cls => e.fb = none
  | .drw _ _ _ => e.fb = none ∧ e.i = none
  | .ldVxDt _ | .ldDtVx _ => e.dt = none
  | .ldStVx _ => e.st = none
  | .ldVxK _ => e.waiting = none ∧ e.prevKey = none
  | .ldI _ | .addIVx _ | .ldFVx _ | .ldBVx _ | .ldMemVx _ | .ldVxMem _ => e.i = none
  | .jp _ | .seByte _ _ | .sneByte _ _ | .seReg _ _ | .ldByte _ _ | .addByte _ _ | .ldReg _ _ | .orReg _ _
  | .andReg _ _ | .xorReg _ _ | .addReg _ _ | .sub _ _ | .shr _ _ | .subn _ _ | .shl _ _ | .sneReg _ _
  | .jpV0 _ | .rnd _ _ | .skp _ | .sknp _ => True

theorem Exchange.skipIf_apply (e : Exchange) (s : State) (c : Bool) :
    (e.apply s).skipIf c = e.apply (s.skipIf c) := by
  cases c <;> rfl

theorem Exchange.skipOnKey_apply (e : Exchange) (s : State) (i : Instr) (b : Byte) (down : Bool) :
    (e.apply s).skipOnKey i b down = e.apply (s.skipOnKey i b down) := by
  unfold State.skipOnKey
  cases keyOf b with
  | none => rfl
  | some k => exact e.skipIf_apply s _

/-- A guarded instruction commutes with an exchange if its effect does: a fault reads only `PC`. -/
theorem Exchange.faultOr_apply (e : Exchange) (s : State) (check : Option FaultKind) (i : Instr)
    {effect effect' : State} (h : effect' = e.apply effect) :
    (e.apply s).faultOr check i effect' = e.apply (s.faultOr check i effect) := by
  subst h
  cases check <;> rfl

/-- An instruction gives the same whether the fields it does not touch are exchanged before or after it. -/
theorem exec_exchange (e : Exchange) {i : Instr} {s t : State} (he : e.spares i) (h : exec i s = .next t) :
    exec i (e.apply s) = .next (e.apply t) := by
  obtain ⟨stack, dt, st, waiting, prevKey, fb, index⟩ := e
  cases i
  case ret =>
    obtain rfl : stack = none := he
    rcases exec_ret_iff.1 h with ⟨hs, rfl⟩ | ⟨top, hs, rfl⟩
    · exact exec_ret_iff.2 (.inl ⟨hs, rfl⟩)
    · exact exec_ret_iff.2 (.inr ⟨top, hs, rfl⟩)
  case ldVxK x =>
    obtain ⟨rfl, rfl⟩ : waiting = none ∧ prevKey = none := he
    rcases exec_ldVxK_iff.1 h with ⟨hw, rfl⟩ | ⟨hw, hk, rfl⟩ | ⟨k, hw, hk, rfl⟩
    · exact exec_ldVxK_iff.2 (.inl ⟨hw, rfl⟩)
    · exact exec_ldVxK_iff.2 (.inr (.inl ⟨hw, hk, rfl⟩))
    · exact exec_ldVxK_iff.2 (.inr (.inr ⟨k, hw, hk, rfl⟩))
  all_goals (injection h with h; subst h)
  case call =>
    obtain rfl : stack = none := he
    exact congrArg Host.Outcome.next (Exchange.faultOr_apply _ s _ _ (by rfl))
  case cls => obtain rfl : fb = none := he; rfl
  case drw =>
    obtain ⟨rfl, rfl⟩ : fb = none ∧ index = none := he
    exact congrArg Host.Outcome.next (Exchange.faultOr_apply _ s _ _ (by rfl))
  case ldVxDt | ldDtVx => obtain rfl : dt = none := he; rfl
  case ldStVx => obtain rfl : st = none := he; rfl
  case ldI | addIVx | ldFVx => obtain rfl : index = none := he; rfl
  case ldBVx | ldMemVx | ldVxMem =>
    obtain rfl : index = none := he
    exact congrArg Host.Outcome.next (Exchange.faultOr_apply _ s _ _ (by rfl))
  case seByte | sneByte | seReg | sneReg => exact congrArg Host.Outcome.next (Exchange.skipIf_apply _ s _)
  case skp | sknp => exact congrArg Host.Outcome.next (Exchange.skipOnKey_apply _ s _ _ _)
  all_goals rfl

/-- An instruction leaves every field it does not touch: an exchange for the values the fields already have
changes nothing before it, so it changes nothing after it. -/
theorem exec_keeps {e : Exchange} {i : Instr} {s t : State} (he : e.spares i) (h : exec i s = .next t)
    (hs : e.apply s = s) : e.apply t = t := by
  have h' := exec_exchange e he h
  rw [hs, h] at h'
  injection h' with h'
  exact h'.symm

/-- Settles O17: the instructions that an exchange of the stack does not spare are the two excluded ones. -/
theorem onlyCallAndReturnTouchTheStack : Obligations.OnlyCallAndReturnTouchTheStack := by
  intro i s t l hret hcall h
  have spared : ({ stack := some l } : Exchange).spares i := by
    cases i <;> simp_all [Exchange.spares]
  exact exec_exchange _ spared h

/-- Settles O39: the instructions that an exchange of the framebuffer does not spare are the two excluded
ones. -/
theorem onlyClearAndDrawTouchTheFramebuffer : Obligations.OnlyClearAndDrawTouchTheFramebuffer := by
  intro i s t f hcls hdrw h
  have spared : ({ fb := some f } : Exchange).spares i := by
    cases i <;> simp_all [Exchange.spares]
  exact exec_exchange _ spared h

/-- Settles O29: an exchange of `ST` spares all but `Fx18`, one of `DT` all but `Fx07` and `Fx15`; the two
writers overwrite the exchanged value. -/
theorem timersAreReadByOneInstruction : Obligations.TimersAreReadByOneInstruction := by
  intro i s t b h
  refine ⟨fun hst => ?_, ?_, fun hread hwrite => ?_, ?_⟩
  · have spared : ({ st := some b } : Exchange).spares i := by
      cases i <;> simp_all [Exchange.spares]
    exact exec_exchange _ spared h
  · rintro ⟨x, rfl⟩
    exact h
  · have spared : ({ dt := some b } : Exchange).spares i := by
      cases i <;> simp_all [Exchange.spares]
    exact exec_exchange _ spared h
  · rintro ⟨x, rfl⟩
    exact h

/-! ### What every instruction leaves

A field that a fault and a move of `PC` leave is left by the skips, and by a guarded instruction whose effect
leaves it. -/

section Observations

variable {α : Type} (f : State → α) (s : State)

theorem State.skipIf_keeps (advanced : ∀ k, f (s.advance k) = f s) (c : Bool) : f (s.skipIf c) = f s := by
  cases c
  · exact advanced 2
  · exact advanced 4

theorem State.faultOr_keeps (faulted : ∀ kind op, f (s.takeFault kind op) = f s) (check : Option FaultKind)
    (i : Instr) {effect : State} (h : f effect = f s) : f (s.faultOr check i effect) = f s := by
  cases check with
  | none => exact h
  | some kind => exact faulted kind _

theorem State.skipOnKey_keeps (advanced : ∀ k, f (s.advance k) = f s)
    (faulted : ∀ kind op, f (s.takeFault kind op) = f s) (i : Instr) (b : Byte) (down : Bool) :
    f (s.skipOnKey i b down) = f s := by
  unfold State.skipOnKey
  cases keyOf b with
  | none => exact faulted _ _
  | some k => exact s.skipIf_keeps f advanced _

end Observations

/-- No instruction writes the key latch (R29). -/
theorem exec_key {i : Instr} {s t : State} (h : exec i s = .next t) : t.key = s.key := by
  cases i
  case ret => rcases exec_ret_iff.1 h with ⟨-, rfl⟩ | ⟨top, -, rfl⟩ <;> rfl
  case ldVxK => rcases exec_ldVxK_iff.1 h with ⟨-, rfl⟩ | ⟨-, -, rfl⟩ | ⟨k, -, -, rfl⟩ <;> rfl
  all_goals (injection h with h; subst h)
  case seByte | sneByte | seReg | sneReg => exact s.skipIf_keeps State.key (fun _ => rfl) _
  case skp | sknp => exact s.skipOnKey_keeps State.key (fun _ => rfl) (fun _ _ => rfl) _ _ _
  case call | drw | ldBVx | ldMemVx | ldVxMem => exact s.faultOr_keeps State.key (fun _ _ => rfl) _ _ rfl
  all_goals rfl

/-- Settles O32: `exec_key`, and an exchange of the wait state spares all but `Fx0A`. -/
theorem onlyKeyWaitTouchesTheWaitState : Obligations.OnlyKeyWaitTouchesTheWaitState := by
  intro i s t h
  refine ⟨exec_key h, fun b p hwait => ?_⟩
  have spared : ({ waiting := some b, prevKey := some p } : Exchange).spares i := by
    cases i <;> simp_all [Exchange.spares]
  exact exec_exchange _ spared h

/-- The instructions that read `I` without writing it leave it, as do those an exchange of `I` spares (R25). -/
theorem exec_i {i : Instr} {s t : State} (h : exec i s = .next t) (hld : ∀ nnn, i ≠ .ldI nnn)
    (hother : ∀ x, i ≠ .addIVx x ∧ i ≠ .ldFVx x ∧ i ≠ .ldMemVx x ∧ i ≠ .ldVxMem x) : t.i = s.i := by
  by_cases reads : ({ i := some s.i } : Exchange).spares i
  · exact (congrArg State.i (exec_keeps reads h rfl)).symm
  · cases i
    case drw | ldBVx =>
      injection h with h
      subst h
      exact s.faultOr_keeps State.i (fun _ _ => rfl) _ _ rfl
    all_goals simp_all [Exchange.spares]

/-- Settles O48: `exec_i`, and an exchange of `I` spares every instruction but its readers and writers. -/
theorem indexRegisterReadersAndWriters : Obligations.IndexRegisterReadersAndWriters := by
  intro i s t h
  constructor
  · intro hchanged
    by_contra hnone
    push Not at hnone
    exact hchanged (exec_i h hnone.1 hnone.2)
  · intro a hdrw hmem hld hfont
    have spared : ({ i := some a } : Exchange).spares i := by
      cases i <;> simp_all [Exchange.spares]
    exact exec_exchange _ spared h

/-! ### Registers -/

theorem State.setResult_readV (s : State) (x r : Reg) (b : Byte) :
    (s.setResult x b).readV r = if r = x then b else s.readV r :=
  s.writeV_readV x r b

/-- The result is written over the flag when `x = 0xF` (R188 to R191). -/
theorem State.flagThenResult_readV (s : State) (x r : Reg) (flag b : Byte) :
    (s.flagThenResult x flag b).readV r = if r = x then b else if r = flagReg then flag else s.readV r := by
  simp [State.flagThenResult]

/-- The flag is written over the result when `x = 0xF` (R187). -/
theorem State.resultThenFlag_readV (s : State) (x r : Reg) (b flag : Byte) :
    (s.resultThenFlag x b flag).readV r = if r = flagReg then flag else if r = x then b else s.readV r := by
  simp [State.resultThenFlag]

/-- A block load leaves the registers above its last (R286). -/
theorem State.writeBlock_load_readV_of_lt (s : State) {x r : Reg} (h : x < r) (a : Nat) :
    (s.writeBlock (s.mem.load a (blockSize x))).readV r = s.readV r := by
  rw [State.writeBlock_readV, Memory.getD_load, if_neg]
  simp only [blockSize, Fin.lt_def] at *
  omega

/-- Settles O25: each instruction by the operation it writes registers with. -/
theorem registersUnchangedExceptDestinations : Obligations.RegistersUnchangedExceptDestinations := by
  intro i s t r h hr
  cases i
  case ret => rcases exec_ret_iff.1 h with ⟨-, rfl⟩ | ⟨top, -, rfl⟩ <;> rfl
  case ldVxK =>
    rcases exec_ldVxK_iff.1 h with ⟨-, rfl⟩ | ⟨-, -, rfl⟩ | ⟨k, -, -, rfl⟩
    · rfl
    · rfl
    · exact (s.writeV_readV _ r _).trans (if_neg hr)
  all_goals (injection h with h; subst h)
  case seByte | sneByte | seReg | sneReg => exact s.skipIf_keeps (State.readV · r) (fun _ => rfl) _
  case skp | sknp => exact s.skipOnKey_keeps (State.readV · r) (fun _ => rfl) (fun _ _ => rfl) _ _ _
  case call | ldBVx | ldMemVx => exact s.faultOr_keeps (State.readV · r) (fun _ _ => rfl) _ _ rfl
  case ldByte | addByte | ldReg | orReg | andReg | xorReg | rnd | ldVxDt | addIVx =>
    exact (s.setResult_readV _ r _).trans (if_neg hr)
  case addReg =>
    obtain ⟨hx, hf⟩ := not_or.1 hr
    exact (s.resultThenFlag_readV _ r _ _).trans ((if_neg hf).trans (if_neg hx))
  case sub | shr | subn | shl =>
    obtain ⟨hx, hf⟩ := not_or.1 hr
    exact (s.flagThenResult_readV _ r _ _).trans ((if_neg hx).trans (if_neg hf))
  case drw =>
    exact s.faultOr_keeps (State.readV · r) (fun _ _ => rfl) _ _ ((s.writeV_readV _ r _).trans (if_neg hr))
  case ldVxMem =>
    exact s.faultOr_keeps (State.readV · r) (fun _ _ => rfl) _ _
      (s.writeBlock_load_readV_of_lt (Fin.not_le.1 hr) _)
  all_goals rfl

end Sys2Proof.Machine

/-! The invariants of 10_state.md R38: at power-on, kept by each host operation, so in every reachable state. -/

namespace Sys2Proof.Machine

/-! ### What the host operations and a schedule can do -/

/-- Everything one host operation can do (R132). -/
theorem hostOp_cases {op : HostOp} {s t : State} (h : hostOp op s = .next t) :
    (op = .step ∧ step s = .next t) ∨
    (op = .tick ∧ t = tick s) ∨
    (∃ (code : Key) (down : Bool), op = .setKeyState code.val down ∧ t = setKeyState code down s) ∨
    (∃ bytes, op = .loadProgram (some bytes) ∧ wellFormedImage bytes = true ∧ t = s.loaded bytes) ∨
    (∃ image, op = .loadProgram image ∧ (∀ bytes, image = some bytes → wellFormedImage bytes = false) ∧ t = s) ∨
    (op = .stop ∧ t = stop s) ∨
    (op = .snapshot ∧ t = s) := by
  cases op with
  | step => exact .inl ⟨rfl, h⟩
  | tick => injection h with h; simp [h]
  | setKeyState code down =>
    by_cases hc : code < 16
    · simp only [hostOp, dif_pos hc, Host.Outcome.next.injEq] at h
      exact .inr (.inr (.inl ⟨⟨code, hc⟩, down, rfl, h.symm⟩))
    · simp [hostOp, hc] at h
  | loadProgram image =>
    injection h with h
    cases image with
    | none => exact .inr (.inr (.inr (.inr (.inl ⟨none, rfl, by simp, h.symm⟩))))
    | some bytes =>
      cases hw : wellFormedImage bytes
      · simp only [loadProgram, hw] at h
        exact .inr (.inr (.inr (.inr (.inl ⟨some bytes, rfl, by simp [hw], h.symm⟩))))
      · simp only [loadProgram, hw] at h
        exact .inr (.inr (.inr (.inl ⟨bytes, rfl, hw, h.symm⟩)))
  | stop => injection h with h; simp [h]
  | snapshot => injection h with h; simp [h]

/-- A schedule that answers a next state went through one after its first operation. -/
theorem runSchedule_cons_iff {op : HostOp} {ops : List HostOp} {s t : State} :
    runSchedule (op :: ops) s = .next t ↔ ∃ u, hostOp op s = .next u ∧ runSchedule ops u = .next t := by
  rw [runSchedule]
  cases hostOp op s <;> simp

/-- What every host operation keeps, every schedule keeps. -/
theorem runSchedule_keeps {P : State → Prop} (keeps : ∀ op s t, P s → hostOp op s = .next t → P t)
    {ops : List HostOp} {s t : State} (hs : P s) (h : runSchedule ops s = .next t) : P t := by
  induction ops generalizing s with
  | nil =>
    injection h with h
    exact h ▸ hs
  | cons op ops ih =>
    obtain ⟨u, hu, ht⟩ := runSchedule_cons_iff.1 h
    exact ih (keeps op s u hs hu) ht

/-! ### Power-on -/

/-- Power-on memory lists nothing. -/
theorem State.reset_read (a : Nat) : State.reset.mem.read a = Memory.unlisted a := rfl

theorem State.reset_fontIntact : State.reset.fontIntact := fun _ ha => dif_pos ha

/-- Settles O57: nothing listed in memory, an empty stack, no wait and no fault. -/
theorem invariantHoldsAtReset : Obligations.InvariantHoldsAtReset where
  memWf := Memory.wf_nil
  depth := Nat.zero_le 16
  font := State.reset_fontIntact
  waiting := nofun
  faulted := fun h => absurd rfl h

/-- Settles O54: the fields as they stand, memory through what an unlisted address reads as. -/
theorem powerOnState : Obligations.PowerOnState := by
  refine ⟨State.reset_fontIntact, fun a ha _ => ?_, fun r => ?_, rfl, rfl, rfl, rfl, rfl, fun k => ?_, rfl,
    Framebuffer.pixel_clear, rfl, rfl⟩
  · exact dif_neg (Nat.not_lt.2 ha)
  · simp [State.readV, State.reset, Vector.get_eq_getElem]
  · simp [State.reset, Vector.get_eq_getElem]

/-! ### Each invariant under an instruction -/

/-- A store past the font leaves the font (R64). -/
theorem State.fontIntact_of_store {s t : State} (hs : s.fontIntact) (hwf : s.mem.wf = true) {a : Nat}
    {bytes : List Byte} (ha : Config.fontBytes ≤ a) (hend : a + bytes.length ≤ memSize)
    (ht : t.mem = s.mem.store a bytes) : t.fontIntact := fun k hk => by
  rw [ht, Memory.read_store_outside hwf bytes hend (.inl (Nat.lt_of_lt_of_le hk ha))]
  exact hs k hk

theorem State.fontIntact_of_mem_eq {s t : State} (hs : s.fontIntact) (ht : t.mem = s.mem) : t.fontIntact :=
  fun k hk => by rw [ht]; exact hs k hk

/-- Only the two stores write memory, and their checks hold them past the font and inside the store. -/
theorem exec_keeps_memory {i : Instr} {s t : State} (h : exec i s = .next t) (hwf : s.mem.wf = true)
    (hfont : s.fontIntact) : t.mem.wf = true ∧ t.fontIntact := by
  rcases exec_mem_cases h with hmem | ⟨bytes, hcheck, hpos, hmem, -⟩
  · exact ⟨by rw [hmem]; exact hwf, State.fontIntact_of_mem_eq hfont hmem⟩
  · obtain ⟨hend, hstart⟩ := (storeFault_none_iff hpos).1 hcheck
    exact ⟨by rw [hmem]; exact Memory.wf_store hwf bytes hend,
      State.fontIntact_of_store hfont hwf hstart hend hmem⟩

/-- A call pushes only below depth 16, a return pops, and no other instruction touches the stack (R26). -/
theorem exec_keeps_depth {i : Instr} {s t : State} (h : exec i s = .next t) (hs : s.stack.length ≤ 16) :
    t.stack.length ≤ 16 := by
  by_cases spared : ({ stack := some s.stack } : Exchange).spares i
  · have kept : t.stack = s.stack := (congrArg State.stack (exec_keeps spared h rfl)).symm
    rwa [kept]
  · cases i
    case ret =>
      rcases exec_ret_iff.1 h with ⟨-, rfl⟩ | ⟨top, -, rfl⟩
      · exact hs
      · simp only [State.jump_stack, State.writeStack_stack, List.length_dropLast]
        omega
    case call nnn =>
      injection h with h
      subst h
      by_cases full : s.stack.length = 16
      · simp [full]
      · simp [full]
        omega
    all_goals simp [Exchange.spares] at spared

/-- Only `Fx0A` changes whether the machine waits, and entering or going on it stays at the same word (R246). -/
theorem exec_keeps_wait {i : Instr} {s t : State} (hi : s.Executes i) (h : exec i s = .next t)
    (hs : s.waitingForKey = true → s.atKeyWait) : t.waitingForKey = true → t.atKeyWait := by
  obtain ⟨-, hfetch, hdecode⟩ := hi
  by_cases spared : ({ waiting := some s.waitingForKey } : Exchange).spares i
  · have kept : t.waitingForKey = s.waitingForKey :=
      (congrArg State.waitingForKey (exec_keeps spared h rfl)).symm
    intro hwait
    obtain ⟨-, x, hx⟩ := hs (kept ▸ hwait)
    obtain rfl : i = .ldVxK x := Except.ok.inj (hdecode.symm.trans hx)
    simp [Exchange.spares] at spared
  · cases i
    case ldVxK x =>
      rcases exec_ldVxK_iff.1 h with ⟨-, rfl⟩ | ⟨-, -, rfl⟩ | ⟨k, -, -, rfl⟩
      · exact fun _ => ⟨hfetch, x, hdecode⟩
      · exact fun _ => ⟨hfetch, x, hdecode⟩
      · exact nofun
    all_goals simp [Exchange.spares] at spared

/-- A fault is recorded only together with the latch (R313). -/
theorem exec_keeps_faulted {i : Instr} {s t : State} (h : exec i s = .next t)
    (hs : s.fault ≠ none → s.stopped = true) : t.fault ≠ none → t.stopped = true := by
  rcases exec_fault_cases i s t h with ⟨-, hstop, hfault⟩ | ⟨kind, -, rfl⟩
  · rw [hstop, hfault]
    exact hs
  · exact fun _ => rfl

/-! ### The invariants together -/

/-- The invariants look at memory, the stack, `PC`, the wait flag and the fault state only. -/
theorem State.Inv.of_eq {s t : State} (hs : s.Inv) (hmem : t.mem = s.mem) (hstack : t.stack = s.stack)
    (hpc : t.pc = s.pc) (hwait : t.waitingForKey = s.waitingForKey)
    (hfault : t.fault ≠ none → t.stopped = true) : t.Inv where
  memWf := by rw [hmem]; exact hs.memWf
  depth := by rw [hstack]; exact hs.depth
  font := State.fontIntact_of_mem_eq hs.font hmem
  waiting := by
    simp only [State.atKeyWait, State.fetchFault, State.fetchWord, hmem, hpc, hwait]
    exact hs.waiting
  faulted := hfault

theorem State.Inv.of_takeFault {s : State} (hs : s.Inv) (kind : FaultKind) (op : Option Word) :
    (s.takeFault kind op).Inv :=
  hs.of_eq rfl rfl rfl rfl fun _ => rfl

theorem State.Inv.of_exec {i : Instr} {s t : State} (hs : s.Inv) (hi : s.Executes i)
    (h : exec i s = .next t) : t.Inv where
  memWf := (exec_keeps_memory h hs.memWf hs.font).1
  depth := exec_keeps_depth h hs.depth
  font := (exec_keeps_memory h hs.memWf hs.font).2
  waiting := exec_keeps_wait hi h hs.waiting
  faulted := exec_keeps_faulted h hs.faulted

theorem State.Inv.of_step {s t : State} (hs : s.Inv) (h : step s = .next t) : t.Inv := by
  rcases step_cases h with ⟨-, rfl⟩ | ⟨-, kind, -, rfl⟩ | ⟨-, -, -, rfl⟩ | ⟨i, hi, hexec⟩
  · exact hs
  · exact hs.of_takeFault kind none
  · exact hs.of_takeFault .unknownInstruction _
  · exact hs.of_exec hi hexec

/-- A load resets, and its image lies past the font and inside the store (R341). -/
theorem State.loaded_inv (s : State) {image : List Byte} (h : wellFormedImage image = true) :
    (s.loaded image).Inv := by
  have room : programBase + image.length ≤ memSize := by
    have : image.length ≤ 3584 := of_decide_eq_true h
    simp only [programBase, memSize]
    omega
  exact {
    memWf := Memory.wf_store Memory.wf_nil image room
    depth := Nat.zero_le 16
    font := State.fontIntact_of_store State.reset_fontIntact Memory.wf_nil (by decide) room rfl
    waiting := nofun
    faulted := fun h => absurd rfl h }

/-- Settles O58: a step and a load by their lemmas; the other operations write none of the fields the
invariants look at, but for `stop`, which only latches `stopped`. -/
theorem hostOperationsKeepTheInvariant : Obligations.HostOperationsKeepTheInvariant := by
  intro op s t hs h
  rcases hostOp_cases h with ⟨-, hstep⟩ | ⟨-, rfl⟩ | ⟨code, down, -, rfl⟩ | ⟨bytes, -, hw, rfl⟩ |
    ⟨image, -, -, rfl⟩ | ⟨-, rfl⟩ | ⟨-, rfl⟩
  · exact hs.of_step hstep
  · exact hs.of_eq rfl rfl rfl rfl hs.faulted
  · exact hs.of_eq rfl rfl rfl rfl hs.faulted
  · exact s.loaded_inv hw
  · exact hs
  · exact hs.of_eq rfl rfl rfl rfl fun _ => rfl
  · exact hs

theorem State.Reachable.inv {s : State} (h : s.Reachable) : s.Inv := by
  obtain ⟨ops, hops⟩ := h
  exact runSchedule_keeps hostOperationsKeepTheInvariant invariantHoldsAtReset hops

/-- Settles O59: the invariants hold at power-on and every schedule keeps them. -/
theorem reachableStatesMeetTheInvariant : Obligations.ReachableStatesMeetTheInvariant := by
  intro s h
  have hs := h.inv
  exact ⟨hs.depth, hs.font, fun hwait => (hs.waiting hwait).2, hs.faulted⟩

end Sys2Proof.Machine

/-! Memory (20_memory.md): its canonical form decides it, only the two stores write it, and the next fetch
reads what they left. -/

namespace Sys2Proof.Machine

/-! ### The canonical form decides the list (log 6) -/

theorem Memory.wfFrom_cons_iff {lo k : Nat} {b : Byte} {rest : Memory} :
    Memory.wfFrom lo ((k, b) :: rest) = true ↔
      lo ≤ k ∧ k < memSize ∧ b ≠ Memory.unlisted k ∧ Memory.wfFrom (k + 1) rest = true := by
  simp [Memory.wfFrom, and_assoc]

@[simp] theorem Memory.read_cons_same (k : Nat) (b : Byte) (rest : Memory) :
    Memory.read ((k, b) :: rest) k = b := if_pos rfl

theorem Memory.read_cons_of_ne {k a : Nat} (h : a ≠ k) (b : Byte) (rest : Memory) :
    Memory.read ((k, b) :: rest) a = rest.read a := if_neg h

/-- A listed cell shows in its reads, so a memory that reads the same cannot begin above it. -/
theorem Memory.le_of_read_eq_cons {lo lo' k : Nat} {b : Byte} {rest m : Memory}
    (h : Memory.wfFrom lo ((k, b) :: rest) = true) (h' : Memory.wfFrom lo' m = true)
    (same : ∀ a < memSize, Memory.read ((k, b) :: rest) a = m.read a) : lo' ≤ k := by
  obtain ⟨-, hk, hb, -⟩ := Memory.wfFrom_cons_iff.1 h
  by_contra above
  refine hb ?_
  rw [← Memory.read_of_lt_wfFrom h' (Nat.lt_of_not_le above), ← same k hk, Memory.read_cons_same]

/-- The tails of two canonical memories with one first cell read the same if the memories do: at the first
cell's address the tails list nothing. -/
theorem Memory.read_tail_eq {k : Nat} {b : Byte} {rest rest' : Memory}
    (h : Memory.wfFrom (k + 1) rest = true) (h' : Memory.wfFrom (k + 1) rest' = true)
    (same : ∀ a < memSize, Memory.read ((k, b) :: rest) a = Memory.read ((k, b) :: rest') a) :
    ∀ a < memSize, rest.read a = rest'.read a := by
  intro a ha
  by_cases hak : a = k
  · have below : a < k + 1 := by omega
    rw [Memory.read_of_lt_wfFrom h below, Memory.read_of_lt_wfFrom h' below]
  · simpa only [Memory.read_cons_of_ne hak] using same a ha

/-- Canonical memories that read the same are equal, wherever they begin. -/
theorem Memory.eq_of_read_eq {lo lo' : Nat} {m m' : Memory} (h : Memory.wfFrom lo m = true)
    (h' : Memory.wfFrom lo' m' = true) (same : ∀ a < memSize, m.read a = m'.read a) : m = m' := by
  induction m generalizing lo lo' m' with
  | nil =>
    cases m' with
    | nil => rfl
    | cons c' rest' =>
      obtain ⟨k', b'⟩ := c'
      have : k' + 1 ≤ k' := Memory.le_of_read_eq_cons h' (m := []) rfl fun a ha => (same a ha).symm
      omega
  | cons c rest ih =>
    obtain ⟨k, b⟩ := c
    obtain ⟨-, hk, hb, hrest⟩ := Memory.wfFrom_cons_iff.1 h
    cases m' with
    | nil =>
      have : k + 1 ≤ k := Memory.le_of_read_eq_cons h (m := []) rfl same
      omega
    | cons c' rest' =>
      obtain ⟨k', b'⟩ := c'
      obtain ⟨-, hk', hb', hrest'⟩ := Memory.wfFrom_cons_iff.1 h'
      have le : k' ≤ k :=
        Memory.le_of_read_eq_cons h (Memory.wfFrom_cons_iff.2 ⟨Nat.le_refl _, hk', hb', hrest'⟩) same
      have ge : k ≤ k' :=
        Memory.le_of_read_eq_cons h' (Memory.wfFrom_cons_iff.2 ⟨Nat.le_refl _, hk, hb, hrest⟩)
          fun a ha => (same a ha).symm
      obtain rfl := Nat.le_antisymm le ge
      obtain rfl : b = b' := by simpa using same _ hk
      rw [ih hrest hrest' (Memory.read_tail_eq hrest hrest' same)]

/-- Settles O49: `Memory.eq_of_read_eq` from address 0 on. -/
theorem canonicalMemoriesAreEqual : Obligations.CanonicalMemoriesAreEqual :=
  fun _ _ h h' same => Memory.eq_of_read_eq h h' same

/-! ### Who writes memory -/

/-- An instruction other than the two stores leaves memory (R60). -/
theorem exec_mem_of_not_store {i : Instr} {s t : State} (h : exec i s = .next t) (hbcd : ∀ x, i ≠ .ldBVx x)
    (hblock : ∀ x, i ≠ .ldMemVx x) : t.mem = s.mem := by
  rcases exec_mem_cases h with hmem | ⟨-, -, -, -, ⟨x, rfl⟩ | ⟨x, rfl⟩⟩
  · exact hmem
  · exact absurd rfl (hbcd x)
  · exact absurd rfl (hblock x)

/-- Every instruction leaves the font's bytes, whatever they are: a store's checks hold it past them (R64). -/
theorem exec_read_font {i : Instr} {s t : State} (h : exec i s = .next t) (hwf : s.mem.wf = true) {a : Nat}
    (ha : a < Config.fontBytes) : t.mem.read a = s.mem.read a := by
  rcases exec_mem_cases h with hmem | ⟨bytes, hcheck, hpos, hmem, -⟩
  · rw [hmem]
  · obtain ⟨hend, hstart⟩ := (storeFault_none_iff hpos).1 hcheck
    rw [hmem, Memory.read_store_outside hwf bytes hend (.inl (Nat.lt_of_lt_of_le ha hstart))]

/-- Settles O47: `exec_mem_of_not_store` and `exec_read_font`. -/
theorem onlyStoresWriteMemory : Obligations.OnlyStoresWriteMemory :=
  fun _ _ _ h => ⟨exec_mem_of_not_store h, fun hwf _ ha => exec_read_font h hwf ha⟩

/-! ### The stores in range, and the fetch after them -/

/-- A block store that begins past the font and ends within the store raises no fault (R285). -/
theorem exec_ldMemVx_of_inRange {s : State} {x : Reg} (hfont : 0x050 ≤ s.dataAddr)
    (hend : s.dataAddr + (x.val + 1) ≤ 0x1000) :
    exec (.ldMemVx x) s =
      .next (((s.writeMem s.dataAddr (s.readBlock x)).writeI (s.nextI x)).advance 2) := by
  have passes : storeFault s.dataAddr (blockSize x) = none :=
    (storeFault_none_iff (Nat.succ_pos _)).2 ⟨hend, hfont⟩
  simp only [exec, execLdMemVx, passes, State.faultOr_none]

/-- A store of digits that begins past the font and ends within the store raises no fault (R284). -/
theorem exec_ldBVx_of_inRange {s : State} {x : Reg} (hfont : 0x050 ≤ s.dataAddr)
    (hend : s.dataAddr + 3 ≤ 0x1000) :
    exec (.ldBVx x) s = .next ((s.writeMem s.dataAddr (bcdDigits (s.readV x))).advance 2) := by
  have passes : storeFault s.dataAddr 3 = none := (storeFault_none_iff (by decide)).2 ⟨hend, hfont⟩
  simp only [exec, execLdBVx, passes, State.faultOr_none]

/-- The stored digits read back as hundreds, tens and ones (R284). -/
theorem Memory.read_store_bcdDigits {m : Memory} (h : m.wf = true) {a : Nat} (ha : a + 3 ≤ memSize) (b : Byte) :
    ((m.store a (bcdDigits b)).read a).toNat = b.toNat / 100 ∧
    ((m.store a (bcdDigits b)).read (a + 1)).toNat = b.toNat / 10 % 10 ∧
    ((m.store a (bcdDigits b)).read (a + 2)).toNat = b.toNat % 10 := by
  have digit (k : Nat) (hk : k < 3) : (m.store a (bcdDigits b)).read (a + k) = (bcdDigits b)[k] :=
    Memory.read_store_inside h (bcdDigits b) ha hk
  have := b.isLt
  refine ⟨(congrArg BitVec.toNat (digit 0 (by decide))).trans ?_,
    (congrArg BitVec.toNat (digit 1 (by decide))).trans ?_,
    (congrArg BitVec.toNat (digit 2 (by decide))).trans ?_⟩
  all_goals
    simp only [bcdDigits, List.getElem_cons_zero, List.getElem_cons_succ, BitVec.toNat_ofNat]
    omega

/-- Settles O11: the fetch after the store reads memory at `PC + 2` and `PC + 3`, each either a stored
register or outside the block. -/
theorem nextFetchSeesTheBlockStore : Obligations.NextFetchSeesTheBlockStore := by
  intro s x hwf hfont hend hpc
  have stored (k : Reg) (hk : k ≤ x) := Memory.read_store_readBlock hwf s x k hk s.dataAddr hend
  have kept {a : Nat} :=
    Memory.read_store_outside hwf (a := s.dataAddr) (a' := a) (s.readBlock x)
      (by rw [State.length_readBlock]; exact hend)
  rw [State.length_readBlock] at kept
  obtain ⟨hword, hrun⟩ := fetch_after_advance (s := s)
    (t := ((s.writeMem s.dataAddr (s.readBlock x)).writeI (s.nextI x)).advance 2) rfl rfl hpc
  exact ⟨_, _, _, exec_ldMemVx_of_inRange hfont hend, hword, fun k hk at_k => at_k ▸ stored k hk,
    fun k hk at_k => at_k ▸ stored k hk, kept, kept, hword ▸ hrun⟩

/-- Settles O60: as for the block store, with each byte either a stored digit or outside the three. -/
theorem nextFetchSeesTheBcdStore : Obligations.NextFetchSeesTheBcdStore := by
  intro s x hwf hfont hend hpc
  obtain ⟨hundreds, tens, ones⟩ := Memory.read_store_bcdDigits hwf hend (s.readV x)
  have kept {a : Nat} :=
    Memory.read_store_outside hwf (a := s.dataAddr) (a' := a) (bcdDigits (s.readV x)) hend
  obtain ⟨hword, hrun⟩ := fetch_after_advance (s := s)
    (t := (s.writeMem s.dataAddr (bcdDigits (s.readV x))).advance 2) rfl rfl hpc
  exact ⟨_, _, _, exec_ldBVx_of_inRange hfont hend, hword, fun at_0 => at_0 ▸ hundreds,
    fun at_1 => at_1 ▸ tens, fun at_2 => at_2 ▸ ones, fun at_0 => at_0 ▸ hundreds,
    fun at_1 => at_1 ▸ tens, fun at_2 => at_2 ▸ ones, kept, kept, hword ▸ hrun⟩

end Sys2Proof.Machine

/-! Encoding (30_encoding.md): the decoder and the encoder are inverse to each other, the recognised words are
those of the table's rows, and the others those that R96 to R100 name. The case splits over the instructions
group them by their format (R91): `NNN`, `XKK`, `XYN`, and `XYS` and `XS8` with their fixed low bits. -/

namespace Sys2Proof

/-! ### Decoding an encoded instruction -/

/-- Settles O1: the sixteen words are decoded. -/
theorem decodeReadsTheSpecWords : Obligations.DecodeReadsTheSpecWords := by
  unfold Obligations.DecodeReadsTheSpecWords
  decide

/-- Settles O2: the decoder tests fields and takes operands from fields only, and each field of an encoded
word is what the encoder put there (the lemmas of Laws/Encode); the families 0x8 and 0xF test a second field in
a function of their own. -/
theorem decodeOfEncodeIsTheInstruction : Obligations.DecodeOfEncodeIsTheInstruction := by
  intro i
  cases i
  case cls | ret => rfl
  case jp | call | ldI | jpV0 | seByte | sneByte | ldByte | addByte | rnd | drw => simp [encode, decode]
  case seReg | sneReg | skp | sknp => simp [encode, decode]
  case ldReg | orReg | andReg | xorReg | addReg | sub | shr | subn | shl => simp [encode, decode, decodeAlu]
  case ldVxDt | ldVxK | ldDtVx | ldStVx | addIVx | ldFVx | ldBVx | ldMemVx | ldVxMem =>
    simp [encode, decode, decodeMisc]

/-! ### A word from its fields, and the instruction of a word encoded -/

theorem encodeNnn_nnnField {w : Word} {op : BitVec 4} (hop : (opField w).toNat = op.toNat) :
    encodeNnn op (nnnField w) = w := by
  apply BitVec.eq_of_toNat_eq
  rw [encodeNnn_toNat, ← hop, opField_toNat, nnnField_toNat]
  omega

theorem encodeXkk_xField {w : Word} {op : BitVec 4} {kk : Byte} (hop : (opField w).toNat = op.toNat)
    (hkk : (kkField w).toNat = kk.toNat) : encodeXkk op (xField w) kk = w := by
  apply BitVec.eq_of_toNat_eq
  rw [encodeXkk_toNat, ← hop, ← hkk, opField_toNat, xField_val, kkField_toNat]
  omega

theorem encodeXyn_xField_yField {w : Word} {op : BitVec 4} {n : Fin 16} (hop : (opField w).toNat = op.toNat)
    (hn : (nField w).val = n.val) : encodeXyn op (xField w) (yField w) n = w := by
  apply BitVec.eq_of_toNat_eq
  rw [encodeXyn_toNat, ← hop, ← hn, opField_toNat, xField_val, yField_val, nField_val]
  omega

theorem encode_of_decodeAlu {w : Word} {i : Instr} (hop : (opField w).toNat = 0x8)
    (h : decodeAlu w = .ok i) : encode i = w := by
  unfold decodeAlu at h
  split at h <;> rename_i hn <;> cases h
  all_goals exact encodeXyn_xField_yField hop hn

theorem encode_of_decodeMisc {w : Word} {i : Instr} (hop : (opField w).toNat = 0xF)
    (h : decodeMisc w = .ok i) : encode i = w := by
  unfold decodeMisc at h
  split at h <;> rename_i hkk <;> cases h
  all_goals exact encodeXkk_xField hop hkk

/-- A test that leads to an instruction succeeds exactly if it holds or what comes after it succeeds. -/
theorem ite_ok_eq_ok_iff {c : Prop} [Decidable c] {i j : Instr} {r : Except Reject Instr} :
    (if c then .ok j else r) = .ok i ↔ (c ∧ j = i) ∨ (¬c ∧ r = .ok i) := by
  split <;> simp [*]

/-- Settles O3: in each family, the format put together again from the word's own fields is the word. -/
theorem encodeOfDecodeIsTheWord : Obligations.EncodeOfDecodeIsTheWord := by
  intro w i h
  unfold decode at h
  split at h <;> rename_i hop
  case h_1 => -- family 0x0, two fixed words
    simp only [ite_ok_eq_ok_iff, reduceCtorEq, and_false, or_false] at h
    obtain ⟨rfl, rfl⟩ | ⟨-, rfl, rfl⟩ := h <;> rfl
  case h_2 | h_3 | h_11 | h_12 => -- 0x1, 0x2, 0xA, 0xB, format `NNN`
    cases h
    exact encodeNnn_nnnField hop
  case h_4 | h_5 | h_7 | h_8 | h_13 => -- 0x3, 0x4, 0x6, 0x7, 0xC, format `XKK`
    cases h
    exact encodeXkk_xField hop rfl
  case h_6 | h_10 => -- 0x5, 0x9, format `XYS`
    simp only [ite_ok_eq_ok_iff, reduceCtorEq, and_false, or_false] at h
    obtain ⟨hn, rfl⟩ := h
    exact encodeXyn_xField_yField hop (congrArg Fin.val hn)
  case h_9 => exact encode_of_decodeAlu hop h
  case h_14 => -- 0xD, format `XYN`
    cases h
    exact encodeXyn_xField_yField hop rfl
  case h_15 => -- 0xE, format `XS8`
    simp only [ite_ok_eq_ok_iff, reduceCtorEq, and_false, or_false] at h
    obtain ⟨hkk, rfl⟩ | ⟨-, hkk, rfl⟩ := h
    all_goals exact encodeXkk_xField hop (congrArg BitVec.toNat hkk)
  case h_16 => exact encode_of_decodeMisc hop h
  case h_17 => cases h -- no other family

/-! ### The rows of the table (R94) -/

theorem accepts_encode (i : Instr) : (opcodeRow i).accepts (encode i) = true := by
  cases i
  case cls | ret => rfl
  case jp | call | ldI | jpV0 => exact Laws.EncodingFitsTable.accepts_nnn _ _ _ rfl
  case seByte | sneByte | ldByte | addByte | rnd => exact Laws.EncodingFitsTable.accepts_xkk _ _ _ _ rfl
  case drw => exact Laws.EncodingFitsTable.accepts_xyn _ _ _ _ _ rfl
  case seReg | sneReg | ldReg | orReg | andReg | xorReg | addReg | sub | shr | subn | shl =>
    exact Laws.EncodingFitsTable.accepts_xys _ _ _ _ _ rfl
  all_goals exact Laws.EncodingFitsTable.accepts_xs8 _ _ _ _ rfl

theorem opcodeRow_mem_opcodeRows (i : Instr) : opcodeRow i ∈ opcodeRows := by
  cases i <;> simp [opcodeRow, opcodeRows, rowRepresentatives, firstRowRepresentatives, lastRowRepresentatives]

theorem wellFormedWord_iff {w : Word} : wellFormedWord w = true ↔ ∃ i, (opcodeRow i).accepts w = true := by
  simp only [wellFormedWord, List.any_eq_true]
  constructor
  · rintro ⟨r, hr, h⟩
    obtain ⟨i, -, rfl⟩ := List.mem_map.1 hr
    exact ⟨i, h⟩
  · rintro ⟨i, h⟩
    exact ⟨_, opcodeRow_mem_opcodeRows i, h⟩

/-- A word of a row agrees with the row's value in every field that the row's mask covers. -/
theorem extractLsb'_of_accepts {r : OpcodeRow} {w : Word} (h : r.accepts w = true) {start len : Nat}
    (hmask : r.mask.extractLsb' start len = BitVec.allOnes len) :
    w.extractLsb' start len = r.value.extractLsb' start len := by
  rw [← of_decide_eq_true h, BitVec.extractLsb'_and, hmask, BitVec.and_allOnes]

/-- Every row fixes the family. -/
theorem opField_of_accepts {i : Instr} {w : Word} (h : (opcodeRow i).accepts w = true) :
    opField w = (opcodeRow i).value.extractLsb' 12 4 := by
  have covered : ∀ r ∈ opcodeRows, r.mask.extractLsb' 12 4 = BitVec.allOnes 4 := by decide
  exact extractLsb'_of_accepts h (covered _ (opcodeRow_mem_opcodeRows i))

/-- A row of format `XYS` fixes the function nibble. -/
theorem nField_of_accepts {r : OpcodeRow} {w : Word} (h : r.accepts w = true) (hmask : r.mask = 0xF00F) :
    (nField w).val = r.value.toNat % 0x10 := by
  have covered : r.mask.extractLsb' 0 4 = BitVec.allOnes 4 := by rw [hmask]; rfl
  exact (congrArg BitVec.toNat (extractLsb'_of_accepts h covered)).trans (nField_val r.value)

/-- A row of format `XS8` fixes the low byte. -/
theorem kkField_of_accepts {r : OpcodeRow} {w : Word} (h : r.accepts w = true) (hmask : r.mask = 0xF0FF) :
    (kkField w).toNat = r.value.toNat % 0x100 := by
  have covered : r.mask.extractLsb' 0 8 = BitVec.allOnes 8 := by rw [hmask]; rfl
  exact (congrArg BitVec.toNat (extractLsb'_of_accepts h covered)).trans (kkField_toNat r.value)

/-- A row without operands fixes the word. -/
theorem eq_of_accepts {r : OpcodeRow} {w : Word} (h : r.accepts w = true) (hmask : r.mask = 0xFFFF) :
    w = r.value := by
  rw [← of_decide_eq_true h, hmask]
  exact BitVec.and_allOnes.symm

/-- A row fixes every field that the decoder tests in its family. -/
theorem exists_decode_of_accepts {i : Instr} {w : Word} (h : (opcodeRow i).accepts w = true) :
    ∃ j, decode w = .ok j := by
  have hop := opField_of_accepts h
  cases i
  case cls | ret =>
    have hw := eq_of_accepts h rfl
    simp [decode, opcodeRow, hw, opField]
  case jp | call | ldI | jpV0 | seByte | sneByte | ldByte | addByte | rnd | drw => simp [decode, opcodeRow, hop]
  case seReg | sneReg =>
    have hn := nField_of_accepts h rfl
    simp [decode, opcodeRow, hop, hn, Fin.ext_iff]
  case ldReg | orReg | andReg | xorReg | addReg | sub | shr | subn | shl =>
    have hn := nField_of_accepts h rfl
    simp [decode, decodeAlu, opcodeRow, hop, hn]
  case skp | sknp =>
    have hkk := kkField_of_accepts h rfl
    simp [decode, opcodeRow, hop, hkk, ← BitVec.toNat_inj]
  case ldVxDt | ldVxK | ldDtVx | ldStVx | addIVx | ldFVx | ldBVx | ldMemVx | ldVxMem =>
    have hkk := kkField_of_accepts h rfl
    simp [decode, decodeMisc, opcodeRow, hop, hkk]

/-- Settles O4: a word that decodes is its instruction's encoding, which the instruction's row accepts. -/
theorem decodeAcceptsExactlyTheTable : Obligations.DecodeAcceptsExactlyTheTable := by
  have row (w : Word) (i : Instr) (h : decode w = .ok i) : (opcodeRow i).accepts w = true :=
    encodeOfDecodeIsTheWord w i h ▸ accepts_encode i
  refine ⟨fun w => ?_, row⟩
  rw [wellFormedWord_iff]
  exact ⟨fun ⟨i, h⟩ => ⟨i, row w i h⟩, fun ⟨_, h⟩ => exists_decode_of_accepts h⟩

/-! ### The words without an instruction (R96 to R100) -/

/-- A test that leads to an instruction refuses exactly if it fails and what comes after it refuses. -/
theorem exists_ite_ok_eq_error_iff {c : Prop} [Decidable c] {j : Instr} {r : Except Reject Instr} :
    (∃ e, (if c then .ok j else r) = .error e) ↔ ¬c ∧ ∃ e, r = .error e := by
  split <;> simp [*]

/-- The function nibbles of family 0x8 without an instruction (R98). -/
theorem exists_decodeAlu_eq_error_iff (w : Word) :
    (∃ e, decodeAlu w = .error e) ↔ w.toNat % 0x10 ∈ [0x8, 0x9, 0xA, 0xB, 0xC, 0xD, 0xF] := by
  rw [← nField_val]
  unfold decodeAlu
  generalize nField w = n
  fin_cases n <;> simp

/-- The low bytes of family 0xF without an instruction (R100). -/
theorem exists_decodeMisc_eq_error_iff (w : Word) :
    (∃ e, decodeMisc w = .error e) ↔
      w.toNat % 0x100 ∉ [0x07, 0x0A, 0x15, 0x18, 0x1E, 0x29, 0x33, 0x55, 0x65] := by
  rw [← kkField_toNat]
  unfold decodeMisc
  split
  all_goals simp_all

/-- Settles O5: in each family the test that the decoder makes is the one listed, and the families without a
test refuse no word. -/
theorem unknownWordsOfEachFamily : Obligations.UnknownWordsOfEachFamily := by
  intro w
  rw [← opField_toNat]
  unfold decode
  split <;> rename_i hop
  case h_1 => simp [hop, exists_ite_ok_eq_error_iff, ← BitVec.toNat_inj] -- family 0x0
  case h_6 | h_10 => simp [hop, exists_ite_ok_eq_error_iff, nField_val, Fin.ext_iff] -- 0x5, 0x9
  case h_9 => simp [hop, exists_decodeAlu_eq_error_iff]
  case h_15 => simp [hop, exists_ite_ok_eq_error_iff, kkField_toNat, ← BitVec.toNat_inj] -- 0xE
  case h_16 => simp [hop, exists_decodeMisc_eq_error_iff]
  case h_17 => -- no other family
    exfalso
    have := (opField w).isLt
    simp only [imp_false] at *
    omega
  all_goals simp [hop] -- the families whose every word is an instruction

end Sys2Proof

/-! Dispatch (40_dispatch.md): what a step answers in each branch of R133, what a run of a parked machine comes
to, and what the other host operations write. -/

namespace Sys2Proof.Machine

/-! ### The branches of a step (R133), each from its own condition -/

theorem step_of_stopped {s : State} (h : s.stopped = true) : step s = .next s := by
  simp [step, h]

theorem step_of_fetchFault {s : State} {kind : FaultKind} (hs : s.stopped = false)
    (hf : s.fetchFault = some kind) : step s = .next (s.takeFault kind none) := by
  simp [step, hs, hf]

theorem step_of_unknown {s : State} {e : Reject} (hs : s.stopped = false) (hf : s.fetchFault = none)
    (hd : decode s.fetchWord = .error e) :
    step s = .next (s.takeFault .unknownInstruction (some s.fetchWord)) := by
  simp [step, hs, hf, hd]

/-- Every arm of `exec` answers a next state: a fault is one too (R313). -/
theorem exec_answers (i : Instr) (s : State) : ∃ t, exec i s = .next t := by
  cases i <;> exact ⟨_, rfl⟩

/-! ### Steps -/

/-- Settles O6: an even `PC` of at most 0xFFE can be fetched from, so the machine executes the instruction. -/
theorem stepRunsTheDecodedInstruction : Obligations.StepRunsTheDecodedInstruction := by
  intro s i hs heven hle hd
  exact step_of_executes ⟨hs, s.fetchFault_none_iff.2 ⟨heven, hle⟩, hd⟩

/-- Settles O7: each clause is the condition of one branch of the step. -/
theorem stepWhenNothingExecutes : Obligations.StepWhenNothingExecutes := by
  intro s
  refine ⟨step_of_stopped, fun hs hodd => ?misaligned, fun hs heven hgt => ?outOfRange,
    fun hs heven hle w e hw hd => ?unknown⟩
  case misaligned => exact step_of_fetchFault hs ((s.fetchFault_some_iff _).2 (.inl ⟨rfl, hodd⟩))
  case outOfRange => exact step_of_fetchFault hs ((s.fetchFault_some_iff _).2 (.inr ⟨rfl, heven, hgt⟩))
  case unknown =>
    subst hw
    exact step_of_unknown hs (s.fetchFault_none_iff.2 ⟨heven, hle⟩) hd

/-- Settles O8: every branch of the step answers a next state, the last one because every instruction does. -/
theorem stepAlwaysAnswersANextState : Obligations.StepAlwaysAnswersANextState := by
  refine ⟨fun s => ?_, exec_answers⟩
  cases hs : s.stopped with
  | true => exact ⟨_, step_of_stopped hs⟩
  | false =>
    cases hf : s.fetchFault with
    | some kind => exact ⟨_, step_of_fetchFault hs hf⟩
    | none =>
      cases hd : decode s.fetchWord with
      | error e => exact ⟨_, step_of_unknown hs hf hd⟩
      | ok i => exact step_of_executes ⟨hs, hf, hd⟩ ▸ exec_answers i s

/-! ### A parked machine (R139) -/

/-- A jump to the place where it stands changes nothing (R154). -/
theorem exec_jp_self {s : State} {nnn : Addr12} (h : addr16 nnn = s.pc) : exec (.jp nnn) s = .next s := by
  simp only [exec, execJp, State.jump, h]

theorem State.Parked.step_eq {s : State} (h : s.Parked) : step s = .next s := by
  obtain ⟨hs, -, hf, nnn, hw, hpc⟩ := h
  have hd : decode s.fetchWord = .ok (.jp nnn) := hw ▸ decodeOfEncodeIsTheInstruction (.jp nnn)
  calc
    step s = exec (.jp nnn) s := step_of_executes ⟨hs, hf, hd⟩
    _ = .next s := exec_jp_self hpc

/-- A state that one step leaves as it is, any number of steps leaves as it is. -/
theorem core_run_of_step_eq_self {s : State} (h : step s = .next s) (n : Nat) :
    Sys2Proof.core.run n s = .next s := by
  induction n with
  | zero => rfl
  | succ n ih => exact (core_run_succ n h).trans ih

/-- Settles O56: one step executes the jump to itself, which changes nothing, and so do the steps after it. -/
theorem parkedMachineStaysParked : Obligations.ParkedMachineStaysParked :=
  fun _ n h => core_run_of_step_eq_self h.step_eq n

/-! ### The other host operations -/

/-- A key code is accepted exactly below 16 (R140). -/
theorem hostOp_setKeyState_iff {code : Nat} {down : Bool} {s t : State} :
    hostOp (.setKeyState code down) s = .next t ↔ ∃ h : code < 16, t = setKeyState ⟨code, h⟩ down s := by
  by_cases h : code < 16 <;> simp [hostOp, h, eq_comm]

/-- Only a step and a successful load write `PC` (R131). -/
theorem hostOp_pc_cases {op : HostOp} {s t : State} (h : hostOp op s = .next t) (hpc : t.pc ≠ s.pc) :
    op = .step ∨ ∃ image, op = .loadProgram (some image) ∧ image.length ≤ 3584 ∧ t.pc = 0x200 := by
  rcases hostOp_cases h with ⟨rfl, -⟩ | ⟨-, rfl⟩ | ⟨code, down, -, rfl⟩ | ⟨image, rfl, hw, rfl⟩ |
    ⟨image, -, -, rfl⟩ | ⟨-, rfl⟩ | ⟨-, rfl⟩
  · exact .inl rfl
  · exact absurd rfl hpc
  · exact absurd rfl hpc
  · exact .inr ⟨image, rfl, of_decide_eq_true hw, rfl⟩
  · exact absurd rfl hpc
  · exact absurd rfl hpc
  · exact absurd rfl hpc

/-- Settles O51: each operation's answer, written out, and the two operations that write `PC`. -/
theorem hostOperationsWriteOnlyTheirFields : Obligations.HostOperationsWriteOnlyTheirFields := by
  intro op s t h
  refine ⟨?tick, ?setKeyState, ?stop, ?snapshot, hostOp_pc_cases h⟩
  case setKeyState =>
    rintro code down rfl
    obtain ⟨-, rfl⟩ := hostOp_setKeyState_iff.1 h
    rfl
  all_goals
    rintro rfl
    injection h with h
    subst h
    rfl

/-- Settles O52: `snapshot` copies each of the ten fields as it is, and reads none of the three others. -/
theorem snapshotShowsTenFields : Obligations.SnapshotShowsTenFields :=
  fun s => ⟨rfl, ⟨snapshot s, rfl, rfl, rfl, rfl, rfl, rfl, rfl, rfl, rfl, rfl, rfl⟩, fun _ _ _ => rfl⟩

end Sys2Proof.Machine

/-! Control transfer (41_control_flow.md): where each jump, call, return and comparing skip puts `PC`, and what a
call and a return do to the stack. -/

namespace Sys2Proof.Machine

/-! ### The return and the call, each from its own condition -/

theorem exec_ret_of_stack_append {s : State} {rest : List Word} {top : Word} (h : s.stack = rest ++ [top]) :
    exec .ret s = .next ((s.writeStack rest).jump top) :=
  exec_ret_iff.2 (.inr ⟨top, by simp [h]⟩)

theorem exec_ret_of_stack_nil {s : State} (h : s.stack = []) :
    exec .ret s = .next (s.takeFault .stackUnderflow (some (encode .ret))) :=
  exec_ret_iff.2 (.inl ⟨by simp [h], rfl⟩)

theorem exec_call_of_depth_ne {s : State} (nnn : Addr12) (h : s.stack.length ≠ 16) :
    exec (.call nnn) s = .next ((s.writeStack (s.stack ++ [s.pc + 2])).jump (addr16 nnn)) := by
  simp [exec, execCall, h]

theorem exec_call_of_depth_eq {s : State} (nnn : Addr12) (h : s.stack.length = 16) :
    exec (.call nnn) s = .next (s.takeFault .stackOverflow (some (encode (.call nnn)))) := by
  simp [exec, execCall, h]

/-! ### Addresses and words -/

@[simp] theorem addr16_toNat (nnn : Addr12) : (addr16 nnn).toNat = nnn.toNat :=
  BitVec.toNat_setWidth_of_le (by decide)

/-- The target of `Bnnn` is below 0x10FF, so the sum does not wrap (R160). -/
theorem addr16_add_toNat (nnn : Addr12) (b : Byte) :
    (addr16 nnn + b.setWidth 16).toNat = nnn.toNat + b.toNat := by
  have hn := nnn.isLt
  have hb := b.isLt
  rw [BitVec.toNat_add, addr16_toNat, BitVec.toNat_setWidth_of_le (by decide)]
  exact Nat.mod_eq_of_lt (by omega)

theorem encode_call_eq_ofNat (nnn : Addr12) : encode (.call nnn) = BitVec.ofNat 16 (0x2000 + nnn.toNat) := by
  have hn := nnn.isLt
  apply BitVec.eq_of_toNat_eq
  calc
    (encode (.call nnn)).toNat = 0x2000 + nnn.toNat := encodeNnn_toNat 0x2 nnn
    _ = (BitVec.ofNat 16 (0x2000 + nnn.toNat)).toNat := (Nat.mod_eq_of_lt (by omega)).symm

/-! ### The statements -/

/-- Settles O12: the two answers of a return, a push at the end being what it pops. -/
theorem returnPopsTheStack : Obligations.ReturnPopsTheStack :=
  fun _ => ⟨fun _ _ => exec_ret_of_stack_append, exec_ret_of_stack_nil⟩

/-- Settles O13: each jump writes `PC` only, with the number of its target. -/
theorem jumpsSetPc : Obligations.JumpsSetPc :=
  fun nnn s => ⟨⟨s.jump (addr16 nnn), rfl, rfl, addr16_toNat nnn⟩,
    ⟨s.jump (addr16 nnn + (s.readV 0).setWidth 16), rfl, rfl, addr16_add_toNat nnn (s.readV 0)⟩⟩

/-- Settles O14: the two answers of a call, the pushed sum and the recorded word as numbers. -/
theorem callPushesTheReturnAddress : Obligations.CallPushesTheReturnAddress := by
  intro nnn s
  refine ⟨fun h => ?pushes, fun h => ?overflows⟩
  case pushes =>
    exact ⟨_, s.pc + 2, exec_call_of_depth_ne nnn h, rfl, BitVec.toNat_add s.pc 2, addr16_toNat nnn⟩
  case overflows =>
    rw [← encode_call_eq_ofNat]
    exact exec_call_of_depth_eq nnn h

/-- Settles O15: each is `skip_if` of its comparison (R151), the unequal ones with the branches exchanged. -/
theorem comparingSkips : Obligations.ComparingSkips := by
  intro x y kk s
  refine ⟨?seByte, ?sneByte, ?seReg, ?sneReg⟩
  case seByte => simp [exec, execSeByte, State.skipIf_eq]
  case sneByte => simp [exec, execSneByte, State.skipIf_eq]
  case seReg => simp [exec, execSeReg, State.skipIf_eq]
  case sneReg => simp [exec, execSneReg, State.skipIf_eq]

/-- Settles O16: the call leaves `PC + 2` on top of the old stack, and the return pops it. -/
theorem callThenReturnComesBack : Obligations.CallThenReturnComesBack := by
  intro nnn s p h
  exact ⟨_, exec_call_of_depth_ne nnn h.ne, exec_ret_of_stack_append rfl⟩

end Sys2Proof.Machine

/-! Registers and ALU (42_alu.md): what a register holds after each of the three ways these instructions write
their result and their flag, and the numbers those are. -/

namespace Sys2Proof.Machine

/-! ### Registers after a result and a flag -/

theorem State.writeV_readV_self (s : State) (x : Reg) : s.writeV x (s.readV x) = s := by
  simp [State.writeV, State.readV, Vector.get_eq_getElem]

theorem State.setResult_readV_self (s : State) (x : Reg) (b : Byte) : (s.setResult x b).readV x = b :=
  (s.setResult_readV x x b).trans (if_pos rfl)

theorem State.setResult_readV_of_ne (s : State) {x r : Reg} (b : Byte) (hr : r ≠ x) :
    (s.setResult x b).readV r = s.readV r :=
  (s.setResult_readV x r b).trans (if_neg hr)

/-- A register keeps its value when it is copied, `y = x` included (R183). -/
theorem State.setResult_readV_source (s : State) (x y : Reg) :
    (s.setResult x (s.readV y)).readV y = s.readV y :=
  (s.setResult_readV x y _).trans (ite_self _)

/-- An instruction that writes its flag before its result: what `V[x]`, `VF` and the rest hold after it (R188 to
R191). -/
theorem exec_of_flagThenResult {i : Instr} {s : State} {x : Reg} {flag b : Byte} {flagNat resultNat : Nat}
    (h : exec i s = .next (s.flagThenResult x flag b)) (hb : b.toNat = resultNat) (hflag : flag.toNat = flagNat) :
    ∃ t, exec i s = .next t ∧ t = { s with v := t.v, pc := s.pc + 2 } ∧ (t.readV x).toNat = resultNat ∧
      (x ≠ flagReg → (t.readV flagReg).toNat = flagNat) ∧
      ∀ r, r ≠ x → r ≠ flagReg → t.readV r = s.readV r := by
  refine ⟨_, h, rfl, ?result, fun hx => ?flag, fun r hx hf => ?others⟩
  case result => rw [State.flagThenResult_readV, if_pos rfl, hb]
  case flag => rw [State.flagThenResult_readV, if_neg hx.symm, if_pos rfl, hflag]
  case others => rw [State.flagThenResult_readV, if_neg hx, if_neg hf]

/-! ### Values -/

theorem carryFlag_toNat (vx vy : Byte) : (carryFlag vx vy).toNat = if 255 < vx.toNat + vy.toNat then 1 else 0 := by
  simp [carryFlag, flagByte_toNat]

theorem noBorrowFlag_toNat (a b : Byte) : (noBorrowFlag a b).toNat = if b.toNat ≤ a.toNat then 1 else 0 := by
  simp [noBorrowFlag, flagByte_toNat]

/-- Bit 0 is the remainder by 2 (R189). -/
theorem lowBitFlag_toNat (src : Byte) : (lowBitFlag src).toNat = src.toNat % 2 := by
  rw [lowBitFlag, flagByte_toNat, BitVec.getLsbD, Nat.testBit_zero]
  simp only [decide_eq_true_eq]
  split <;> omega

/-- Bit 7 of a byte is its quotient by 128, a byte being below 256 (R191). -/
theorem highBitFlag_toNat (src : Byte) : (highBitFlag src).toNat = src.toNat / 128 := by
  have hsrc := src.isLt
  rw [highBitFlag, flagByte_toNat, BitVec.getLsbD, Nat.testBit_eq_decide_div_mod_eq]
  simp only [decide_eq_true_eq]
  split <;> omega

theorem byte_sub_toNat (a b : Byte) : (a - b).toNat = (a.toNat + 256 - b.toNat) % 256 := by
  have hb := b.isLt
  rw [BitVec.toNat_sub]
  omega

theorem byte_shiftRight_one_toNat (src : Byte) : (src >>> 1).toNat = src.toNat / 2 := by
  rw [BitVec.toNat_ushiftRight, Nat.shiftRight_eq_div_pow]

theorem byte_shiftLeft_one_toNat (src : Byte) : (src <<< 1).toNat = src.toNat * 2 % 256 := by
  rw [BitVec.toNat_shiftLeft, Nat.shiftLeft_eq]

/-- The operand by the value of SHIFT_SOURCE (R194). -/
theorem shiftOperand_eq (vx vy : Byte) : shiftOperand vx vy = if Config.shiftSource = .vy then vy else vx := by
  rw [shiftOperand]
  cases Config.shiftSource <;> rfl

/-! ### The statements -/

/-- Settles O18: both set `V[x]`, and the second copy writes what `V[x]` holds already. -/
theorem loadAndCopyRegister : Obligations.LoadAndCopyRegister := by
  intro x y kk s
  refine ⟨⟨_, rfl, rfl, s.setResult_readV_self x kk, fun _ => s.setResult_readV_of_ne kk⟩,
    ⟨s.setResult x (s.readV y), rfl, rfl, s.setResult_readV_self x _, fun _ => s.setResult_readV_of_ne _, ?again⟩⟩
  case again =>
    have same : (s.setResult x (s.readV y)).readV y = (s.setResult x (s.readV y)).readV x :=
      (s.setResult_readV_source x y).trans (s.setResult_readV_self x _).symm
    rw [exec, execLdReg, same, State.setResult, State.writeV_readV_self]
    rfl

/-- Settles O19: the sum of two bytes is taken mod 256, and the one register written is `V[x]`. -/
theorem addImmediateWraps : Obligations.AddImmediateWraps := by
  intro x kk s
  refine ⟨s.setResult x (s.readV x + kk), rfl, rfl, ?sum, fun _ => s.setResult_readV_of_ne _⟩
  case sum => rw [State.setResult_readV_self, BitVec.toNat_add]

/-- Settles O20: each operation of the library acts bit by bit, and the one register written is `V[x]`. -/
theorem logicOperations : Obligations.LogicOperations := by
  intro x y s
  refine ⟨⟨s.setResult x (s.readV x ||| s.readV y), rfl, rfl, fun k _ => ?or, fun _ => s.setResult_readV_of_ne _⟩,
    ⟨s.setResult x (s.readV x &&& s.readV y), rfl, rfl, fun k _ => ?and, fun _ => s.setResult_readV_of_ne _⟩,
    ⟨s.setResult x (s.readV x ^^^ s.readV y), rfl, rfl, fun k _ => ?xor, fun _ => s.setResult_readV_of_ne _⟩⟩
  case or => rw [State.setResult_readV_self, BitVec.getLsbD_or]
  case and => rw [State.setResult_readV_self, BitVec.getLsbD_and]
  case xor => rw [State.setResult_readV_self, BitVec.getLsbD_xor]

/-- Settles O21: the flag is written over the sum when `x = 0xF`. -/
theorem addSetsTheCarry : Obligations.AddSetsTheCarry := by
  intro x y s
  refine ⟨s.resultThenFlag x (s.readV x + s.readV y) (carryFlag (s.readV x) (s.readV y)), rfl, rfl,
    fun hx => ?sum, ?carry, fun r hx hf => ?others⟩
  case sum => rw [State.resultThenFlag_readV, if_neg hx, if_pos rfl, BitVec.toNat_add]
  case carry => rw [State.resultThenFlag_readV, if_pos rfl, carryFlag_toNat]
  case others => rw [State.resultThenFlag_readV, if_neg hf, if_neg hx]

/-- Settles O22: both write the flag and then the difference. -/
theorem subtractionsSetNoBorrow : Obligations.SubtractionsSetNoBorrow := fun _ _ _ =>
  ⟨exec_of_flagThenResult rfl (byte_sub_toNat _ _) (noBorrowFlag_toNat _ _),
    exec_of_flagThenResult rfl (byte_sub_toNat _ _) (noBorrowFlag_toNat _ _)⟩

/-- Settles O23: both write the bit shifted out and then the shifted source, which is the one SHIFT_SOURCE
chooses. -/
theorem shiftsTakeTheShiftSource : Obligations.ShiftsTakeTheShiftSource := by
  intro x y s src hsrc
  rw [← shiftOperand_eq] at hsrc
  subst hsrc
  exact ⟨exec_of_flagThenResult rfl (byte_shiftRight_one_toNat _) (lowBitFlag_toNat _),
    exec_of_flagThenResult rfl (byte_shiftLeft_one_toNat _) (highBitFlag_toNat _)⟩

/-- Settles O24: the one register written takes the masked byte, and the count of draws goes on by one. -/
theorem randomByteIsMasked : Obligations.RandomByteIsMasked := by
  intro x kk s
  have masked : (s.maskRandom x kk s.randomByte).readV x = s.randomByte &&& kk :=
    s.setResult_readV_self x _
  refine ⟨s.maskRandom x kk s.randomByte, rfl, rfl, masked, ?outside, fun _ => s.setResult_readV_of_ne _⟩
  case outside =>
    rw [masked, BitVec.and_assoc, BitVec.and_not_self]
    exact BitVec.and_zero

end Sys2Proof.Machine

/-! Timers (43_timers.md): the number a tick leaves in each, and the host operations that can change them. -/

namespace Sys2Proof.Machine

/-! ### The tick (R224) -/

theorem decay_toNat (b : Byte) : (decay b).toNat = b.toNat - min b.toNat 60 :=
  Nat.mod_eq_of_lt (Nat.lt_of_le_of_lt (Nat.sub_le _ _) b.isLt)

/-- A tick that changes a timer lowers it: a timer at 0 stays 0. -/
theorem decay_toNat_lt {b : Byte} (h : decay b ≠ b) : (decay b).toNat < b.toNat := by
  have hne : (decay b).toNat ≠ b.toNat := fun e => h (BitVec.eq_of_toNat_eq e)
  rw [decay_toNat] at hne ⊢
  exact Nat.lt_of_le_of_ne (Nat.sub_le _ _) hne

/-! ### The one instruction that writes each timer -/

/-- An exchange of `DT` spares every instruction but `Fx15`, which writes it, and `Fx07`, which reads it. -/
theorem exec_dt_writer {i : Instr} {s t : State} (h : exec i s = .next t) (hdt : t.dt ≠ s.dt) :
    ∃ x, i = .ldDtVx x := by
  by_cases spared : ({ dt := some s.dt } : Exchange).spares i
  · exact absurd (congrArg State.dt (exec_keeps spared h rfl)).symm hdt
  · cases i
    case ldDtVx x => exact ⟨x, rfl⟩
    case ldVxDt x =>
      injection h with h
      subst h
      exact absurd rfl hdt
    all_goals simp [Exchange.spares] at spared

/-- An exchange of `ST` spares every instruction but `Fx18`. -/
theorem exec_st_writer {i : Instr} {s t : State} (h : exec i s = .next t) (hst : t.st ≠ s.st) :
    ∃ x, i = .ldStVx x := by
  by_cases spared : ({ st := some s.st } : Exchange).spares i
  · exact absurd (congrArg State.st (exec_keeps spared h rfl)).symm hst
  · cases i
    case ldStVx x => exact ⟨x, rfl⟩
    all_goals simp [Exchange.spares] at spared

/-! ### What a host operation can do to the timers -/

/-- A step that takes no instruction leaves the timers. -/
theorem step_timers_cases {s t : State} (h : step s = .next t) :
    (t.dt = s.dt ∧ t.st = s.st) ∨ ∃ i, s.Executes i ∧ exec i s = .next t := by
  rcases step_cases h with ⟨-, rfl⟩ | ⟨-, kind, -, rfl⟩ | ⟨-, -, -, rfl⟩ | hexec
  · exact .inl ⟨rfl, rfl⟩
  · exact .inl ⟨rfl, rfl⟩
  · exact .inl ⟨rfl, rfl⟩
  · exact .inr hexec

/-- Both timers stay, or tick, or are reset by a load, or are left to an instruction (R220). -/
theorem hostOp_timers_cases {op : HostOp} {s t : State} (h : hostOp op s = .next t) :
    (t.dt = s.dt ∧ t.st = s.st) ∨
    (op = .tick ∧ t.dt = decay s.dt ∧ t.st = decay s.st) ∨
    (∃ image, op = .loadProgram (some image) ∧ t.dt = 0 ∧ t.st = 0) ∨
    (op = .step ∧ ∃ i, s.Executes i ∧ exec i s = .next t) := by
  rcases hostOp_cases h with ⟨rfl, hstep⟩ | ⟨rfl, rfl⟩ | ⟨code, down, -, rfl⟩ | ⟨image, rfl, -, rfl⟩ |
    ⟨image, -, -, rfl⟩ | ⟨-, rfl⟩ | ⟨-, rfl⟩
  · rcases step_timers_cases hstep with kept | hexec
    · exact .inl kept
    · exact .inr (.inr (.inr ⟨rfl, hexec⟩))
  · exact .inr (.inl ⟨rfl, rfl, rfl⟩)
  · exact .inl ⟨rfl, rfl⟩
  · exact .inr (.inr (.inl ⟨image, rfl, rfl, rfl⟩))
  · exact .inl ⟨rfl, rfl⟩
  · exact .inl ⟨rfl, rfl⟩
  · exact .inl ⟨rfl, rfl⟩

/-! ### The statements -/

/-- Settles O28: the four cases of a host operation, of which an instruction changes a timer only as its
writer. -/
theorem timersChangeOnlyByTheirWriters : Obligations.TimersChangeOnlyByTheirWriters := by
  intro op s t h
  rcases hostOp_timers_cases h with ⟨hdt, hst⟩ | ⟨rfl, hdt, hst⟩ | ⟨image, rfl, hdt, hst⟩ | ⟨rfl, i, hi, hexec⟩
  · exact ⟨fun hne => absurd hdt hne, fun hne => absurd hst hne⟩
  · rw [hdt, hst]
    exact ⟨fun hne => .inl ⟨rfl, decay_toNat_lt hne⟩, fun hne => .inl ⟨rfl, decay_toNat_lt hne⟩⟩
  · exact ⟨fun _ => .inr (.inl ⟨image, rfl, hdt⟩), fun _ => .inr (.inl ⟨image, rfl, hst⟩)⟩
  · refine ⟨fun hne => .inr (.inr ⟨rfl, ?dt⟩), fun hne => .inr (.inr ⟨rfl, ?st⟩)⟩
    case dt =>
      obtain ⟨x, rfl⟩ := exec_dt_writer hexec hne
      exact ⟨x, hi⟩
    case st =>
      obtain ⟨x, rfl⟩ := exec_st_writer hexec hne
      exact ⟨x, hi⟩

/-- Settles O26: `Fx07` writes one register, each of the others its timer. -/
theorem timerInstructions : Obligations.TimerInstructions := fun x s =>
  ⟨⟨s.setResult x s.dt, rfl, rfl, s.setResult_readV_self x s.dt, fun _ => s.setResult_readV_of_ne s.dt⟩, rfl, rfl⟩

/-- Settles O27: `decay_toNat` for each timer. -/
theorem tickDecaysBothTimers : Obligations.TickDecaysBothTimers := fun s =>
  ⟨tick s, rfl, rfl, decay_toNat s.dt, decay_toNat s.st⟩

end Sys2Proof.Machine

/-! Keypad (44_keypad.md): the skips on a key's level, the three transitions of the key wait, and what a wait
does while the host changes no key and after it presses one. -/

namespace Sys2Proof.Machine

/-! ### The skips on a key's level (R242, R243) -/

theorem State.skipOnKey_of_key (s : State) (i : Instr) {b : Byte} {k : Key} (h : b.toNat = k.val) (down : Bool) :
    s.skipOnKey i b down = { s with pc := s.pc + if s.key.get k = down then 4 else 2 } := by
  have hkey : keyOf b = some k := (keyOf_of_lt (h ▸ k.isLt)).trans (congrArg some (Fin.ext h))
  simp only [State.skipOnKey, hkey, State.skipIf_eq, beq_iff_eq]

theorem State.skipOnKey_of_no_key (s : State) (i : Instr) {b : Byte} (h : 15 < b.toNat) (down : Bool) :
    s.skipOnKey i b down = s.takeFault .keyIndexOutOfRange (some (encode i)) := by
  simp only [State.skipOnKey, (keyOf_none_iff b).2 h]

theorem encodeXkk_eq_ofNat (op : BitVec 4) (x : Reg) (kk : Byte) :
    encodeXkk op x kk = BitVec.ofNat 16 (op.toNat * 0x1000 + kk.toNat + 0x100 * x.val) := by
  have hop := op.isLt
  have hx := x.isLt
  have hkk := kk.isLt
  apply BitVec.eq_of_toNat_eq
  calc
    (encodeXkk op x kk).toNat = op.toNat * 0x1000 + x.val * 0x100 + kk.toNat := encodeXkk_toNat op x kk
    _ = op.toNat * 0x1000 + kk.toNat + 0x100 * x.val := by omega
    _ = _ := (Nat.mod_eq_of_lt (by omega)).symm

theorem encode_skp_eq_ofNat (x : Reg) : encode (.skp x) = BitVec.ofNat 16 (0xE09E + 0x100 * x.val) :=
  encodeXkk_eq_ofNat 0xE x 0x9E

theorem encode_sknp_eq_ofNat (x : Reg) : encode (.sknp x) = BitVec.ofNat 16 (0xE0A1 + 0x100 * x.val) :=
  encodeXkk_eq_ofNat 0xE x 0xA1

/-! ### A key after `setKeyState` (R240) -/

theorem setKeyState_get_self (s : State) (c : Key) (down : Bool) : (setKeyState c down s).key.get c = down :=
  (setKeyState_get s c down c).trans (if_pos rfl)

theorem setKeyState_get_of_ne (s : State) {c j : Key} (down : Bool) (h : j ≠ c) :
    (setKeyState c down s).key.get j = s.key.get j :=
  (setKeyState_get s c down j).trans (if_neg h)

/-! ### The edges that the two key operations leave (R240, R244) -/

/-- A snapshot leaves no edge: a key that is down is down in the snapshot too. -/
theorem State.firstEdge_snapshotKeys (s : State) : s.snapshotKeys.firstEdge = none := by
  refine s.snapshotKeys.firstEdge_eq_none_iff.2 fun k ⟨hup, hdown⟩ => ?_
  exact absurd (hup.symm.trans hdown) Bool.false_ne_true

/-- After a snapshot, a press of a key that was up is the one edge. -/
theorem State.firstEdge_press_snapshotKeys {s : State} {k : Key} (h : s.key.get k = false) :
    (setKeyState k true s.snapshotKeys).firstEdge = some k := by
  refine (State.firstEdge_eq_some_iff _ k).2 ⟨⟨h, setKeyState_get_self _ k true⟩, fun j hj ⟨hup, hdown⟩ => ?lower⟩
  case lower =>
    rw [setKeyState_get_of_ne _ true hj.ne] at hdown
    exact absurd (hup.symm.trans hdown) Bool.false_ne_true

/-! ### The transitions of the wait, each from its own condition (R244) -/

theorem exec_ldVxK_of_not_waiting {s : State} (x : Reg) (h : s.waitingForKey = false) :
    exec (.ldVxK x) s = .next s.snapshotKeys :=
  exec_ldVxK_iff.2 (.inl ⟨h, rfl⟩)

theorem exec_ldVxK_of_no_edge {s : State} (x : Reg) (hw : s.waitingForKey = true) (h : s.firstEdge = none) :
    exec (.ldVxK x) s = .next s.snapshotKeys :=
  exec_ldVxK_iff.2 (.inr (.inl ⟨hw, h, rfl⟩))

/-- A snapshot taken while the machine waits writes `prevKey` only. -/
theorem State.snapshotKeys_of_waiting {s : State} (h : s.waitingForKey = true) :
    s.snapshotKeys = { s with prevKey := s.key } := by
  rw [State.snapshotKeys, ← h]

/-- The capture, with its frame: one register takes the number of the key, the wait ends, `PC` advances. -/
theorem exec_ldVxK_of_edge {s : State} (x : Reg) {k : Key} (hw : s.waitingForKey = true)
    (h : s.firstEdge = some k) :
    ∃ t, exec (.ldVxK x) s = .next t ∧ t = { s with v := t.v, waitingForKey := false, pc := s.pc + 2 } ∧
      (t.readV x).toNat = k.val ∧ ∀ r, r ≠ x → t.readV r = s.readV r := by
  refine ⟨_, exec_ldVxK_iff.2 (.inr (.inr ⟨k, hw, h, rfl⟩)), rfl, ?captured, fun r hr => ?others⟩
  case captured =>
    have hk : k.val < 2 ^ 8 := k.isLt.trans (by decide)
    simpa using Nat.mod_eq_of_lt hk
  case others => simp [hr]

/-! ### The instruction at `PC` is still there after the key operations -/

theorem State.Executes.snapshotKeys {s : State} {i : Instr} (h : s.Executes i) : s.snapshotKeys.Executes i := h

theorem State.Executes.setKeyState {s : State} {i : Instr} (h : s.Executes i) (c : Key) (down : Bool) :
    (setKeyState c down s).Executes i := h

/-- While the host changes no key, a step of a wait that has taken its snapshot changes nothing. -/
theorem step_snapshotKeys_eq_self {s : State} {x : Reg} (h : s.Executes (.ldVxK x)) :
    step s.snapshotKeys = .next s.snapshotKeys := by
  calc
    step s.snapshotKeys = exec (.ldVxK x) s.snapshotKeys := step_of_executes h.snapshotKeys
    _ = .next s.snapshotKeys.snapshotKeys := exec_ldVxK_of_no_edge x rfl s.firstEdge_snapshotKeys
    _ = .next s.snapshotKeys := rfl

/-! ### The statements -/

/-- Settles O30: `skip_if` of the key's level, or the fault with the word of the instruction as a number. -/
theorem skipsOnAKeyLevel : Obligations.SkipsOnAKeyLevel := by
  intro x s
  refine ⟨fun k hk => ⟨?skp, ?sknp⟩, fun h => ⟨?skpFault, ?sknpFault⟩⟩
  case skp => exact congrArg Host.Outcome.next (s.skipOnKey_of_key (.skp x) hk true)
  case sknp =>
    refine (congrArg Host.Outcome.next (s.skipOnKey_of_key (.sknp x) hk false)).trans ?_
    cases s.key.get k <;> rfl
  case skpFault =>
    rw [← encode_skp_eq_ofNat]
    exact congrArg Host.Outcome.next (s.skipOnKey_of_no_key (.skp x) h true)
  case sknpFault =>
    rw [← encode_sknp_eq_ofNat]
    exact congrArg Host.Outcome.next (s.skipOnKey_of_no_key (.sknp x) h false)

/-- Settles O31: the three transitions, the edge of the third being the first one by its premises. -/
theorem keyWaitStateMachine : Obligations.KeyWaitStateMachine := by
  intro x s
  refine ⟨exec_ldVxK_of_not_waiting x, fun hw noEdge => ?waitsOn, fun k hw hup hdown lowest => ?captures⟩
  case waitsOn =>
    rw [← State.snapshotKeys_of_waiting hw]
    exact exec_ldVxK_of_no_edge x hw (s.firstEdge_eq_none_iff.2 noEdge)
  case captures => exact exec_ldVxK_of_edge x hw ((s.firstEdge_eq_some_iff k).2 ⟨⟨hup, hdown⟩, lowest⟩)

/-- Settles O34: the first step takes a snapshot with the key up, so the press is the one edge that the second
step sees. -/
theorem pressAfterASeenReleaseIsCaptured : Obligations.PressAfterASeenReleaseIsCaptured := by
  intro s x k hs hw noEdge hup
  have waits : step s = .next s.snapshotKeys :=
    (step_of_executes hs).trans (exec_ldVxK_of_no_edge x hw (s.firstEdge_eq_none_iff.2 noEdge))
  have pressed : hostOp (.setKeyState k.val true) s.snapshotKeys = .next (setKeyState k true s.snapshotKeys) :=
    hostOp_setKeyState_iff.2 ⟨k.isLt, rfl⟩
  obtain ⟨u, hu, frame, captured, -⟩ :=
    exec_ldVxK_of_edge (s := setKeyState k true s.snapshotKeys) x rfl (State.firstEdge_press_snapshotKeys hup)
  have captures : step (setKeyState k true s.snapshotKeys) = .next u :=
    (step_of_executes (hs.snapshotKeys.setKeyState k true)).trans hu
  have run : runSchedule [.setKeyState k.val true, .step] s.snapshotKeys = .next u :=
    runSchedule_cons_iff.2 ⟨_, pressed, runSchedule_cons_iff.2 ⟨u, captures, rfl⟩⟩
  exact ⟨s.snapshotKeys, u, waits, rfl, rfl, run, captured, congrArg State.pc frame,
    congrArg State.waitingForKey frame⟩

/-- Settles O35: the first step enters the wait and takes the snapshot, and the steps after it change nothing. -/
theorem keysHeldAtEntryAreNotCaptured : Obligations.KeysHeldAtEntryAreNotCaptured := by
  intro s x n hs hw
  have entry : step s = .next s.snapshotKeys := (step_of_executes hs).trans (exec_ldVxK_of_not_waiting x hw)
  calc
    Sys2Proof.core.run (n + 1) s = Sys2Proof.core.run n s.snapshotKeys := core_run_succ n entry
    _ = .next s.snapshotKeys := core_run_of_step_eq_self (step_snapshotKeys_eq_self hs) n

/-- Settles O33: a code below 16 writes its key, any other is refused. -/
theorem setKeyStateWritesOneKey : Obligations.SetKeyStateWritesOneKey := by
  intro code down s
  refine ⟨?writes, fun h => dif_neg (Nat.not_lt.2 h)⟩
  case writes =>
    rintro k rfl
    exact ⟨setKeyState k down s, hostOp_setKeyState_iff.2 ⟨k.isLt, rfl⟩, rfl, setKeyState_get_self s k down,
      fun _ => setKeyState_get_of_ne s down⟩

end Sys2Proof.Machine

/-! Display (45_display.md): the pixels under a sprite are listed, each once, since eight columns and fifteen rows
do not wrap onto themselves; a draw toggles the pixels of that list. -/

namespace Sys2Proof.Machine

/-! ### Toggling a list of pixels -/

/-- A draw of the listed pixels, in their order. -/
def drawPixels (pixels : List (Fin 64 × Fin 32)) (d : Drawing) : Drawing :=
  pixels.foldl (fun d p => drawPixel d p.1 p.2) d

@[simp] theorem drawPixels_nil (d : Drawing) : drawPixels [] d = d := rfl

@[simp] theorem drawPixels_cons (p : Fin 64 × Fin 32) (pixels : List (Fin 64 × Fin 32)) (d : Drawing) :
    drawPixels (p :: pixels) d = drawPixels pixels (drawPixel d p.1 p.2) := rfl

theorem drawPixels_append (pixels pixels' : List (Fin 64 × Fin 32)) (d : Drawing) :
    drawPixels (pixels ++ pixels') d = drawPixels pixels' (drawPixels pixels d) :=
  List.foldl_append

theorem pixel_drawPixel_self (d : Drawing) (px : Fin 64) (py : Fin 32) :
    (drawPixel d px py).fb.pixel px py = !d.fb.pixel px py := by
  simp

theorem pixel_drawPixel_of_ne (d : Drawing) {p q : Fin 64 × Fin 32} (h : q ≠ p) :
    (drawPixel d p.1 p.2).fb.pixel q.1 q.2 = d.fb.pixel q.1 q.2 := by
  simp [← Prod.ext_iff, h]

theorem pixel_drawPixels_of_not_mem {pixels : List (Fin 64 × Fin 32)} {q : Fin 64 × Fin 32} (h : q ∉ pixels)
    (d : Drawing) : (drawPixels pixels d).fb.pixel q.1 q.2 = d.fb.pixel q.1 q.2 := by
  induction pixels generalizing d with
  | nil => rfl
  | cons p pixels ih =>
    rw [drawPixels_cons, ih (List.not_mem_of_not_mem_cons h),
      pixel_drawPixel_of_ne d (List.ne_of_not_mem_cons h)]

/-- A pixel listed once is flipped once. -/
theorem pixel_drawPixels_of_mem {pixels : List (Fin 64 × Fin 32)} (hnodup : pixels.Nodup) {q : Fin 64 × Fin 32}
    (h : q ∈ pixels) (d : Drawing) : (drawPixels pixels d).fb.pixel q.1 q.2 = !d.fb.pixel q.1 q.2 := by
  induction pixels generalizing d with
  | nil => exact absurd h List.not_mem_nil
  | cons p pixels ih =>
    obtain ⟨hp, hnodup⟩ := List.nodup_cons.1 hnodup
    rw [drawPixels_cons]
    rcases List.mem_cons.1 h with rfl | hq
    · rw [pixel_drawPixels_of_not_mem hp, pixel_drawPixel_self]
    · have hne : q ≠ p := fun e => hp (e ▸ hq)
      rw [ih hnodup hq, pixel_drawPixel_of_ne d hne]

/-- When each pixel is listed once, the collisions are with pixels that were 1 before the whole draw. -/
theorem drawPixels_collided_iff {pixels : List (Fin 64 × Fin 32)} (hnodup : pixels.Nodup) (d : Drawing) :
    (drawPixels pixels d).collided = true ↔
      d.collided = true ∨ ∃ q ∈ pixels, d.fb.pixel q.1 q.2 = true := by
  induction pixels generalizing d with
  | nil => simp
  | cons p pixels ih =>
    obtain ⟨hp, hnodup⟩ := List.nodup_cons.1 hnodup
    have later : (∃ q ∈ pixels, (drawPixel d p.1 p.2).fb.pixel q.1 q.2 = true) ↔
        ∃ q ∈ pixels, d.fb.pixel q.1 q.2 = true :=
      exists_congr fun q => and_congr_right fun hq => by
        have hne : q ≠ p := fun e => hp (e ▸ hq)
        rw [pixel_drawPixel_of_ne d hne]
    rw [drawPixels_cons, ih hnodup, later, drawPixel_collided, Bool.or_eq_true, List.exists_mem_cons_iff, or_assoc]

/-! ### The pixels under a sprite (R260, R262) -/

/-- The pixels under the set bits of one sprite row, from the leftmost on. -/
def rowPixels (vx vy : Byte) (row : Nat) (b : Byte) : List (Fin 64 × Fin 32) :=
  ((List.range 8).filter fun col => b.getLsbD (7 - col)).map fun col => (spriteColumn vx col, spriteRow vy row)

/-- The pixels under the `n`-row sprite at `I`, from the topmost row on. -/
def State.spritePixels (s : State) (vx vy : Byte) (n : Nat) : List (Fin 64 × Fin 32) :=
  (List.range n).flatMap fun row => rowPixels vx vy row (s.mem.read (s.dataAddr + row))

theorem drawRow_eq_drawPixels (vx vy : Byte) (row : Nat) (b : Byte) (d : Drawing) :
    drawRow vx vy row b d = drawPixels (rowPixels vx vy row b) d := by
  rw [drawPixels, rowPixels, List.foldl_map, List.foldl_filter, drawRow]

theorem drawRows_range'_eq_drawPixels (vx vy : Byte) (byteAt : Nat → Byte) (row n : Nat) (d : Drawing) :
    drawRows vx vy row ((List.range' row n).map byteAt) d =
      drawPixels ((List.range' row n).flatMap fun k => rowPixels vx vy k (byteAt k)) d := by
  induction n generalizing row d with
  | zero => rfl
  | succ n ih =>
    rw [List.range'_succ, List.map_cons, List.flatMap_cons, drawRows_cons, ih, drawRow_eq_drawPixels,
      drawPixels_append]

theorem drawSprite_load_eq_drawPixels (s : State) (f : Framebuffer) (vx vy : Byte) (n : Nat) :
    drawSprite f vx vy (s.mem.load s.dataAddr n) =
      drawPixels (s.spritePixels vx vy n) { fb := f, collided := false } := by
  rw [drawSprite, Memory.load, State.spritePixels, List.range_eq_range']
  exact drawRows_range'_eq_drawPixels vx vy _ 0 n _

theorem mem_rowPixels_iff {vx vy : Byte} {row : Nat} {b : Byte} {p : Fin 64 × Fin 32} :
    p ∈ rowPixels vx vy row b ↔
      ∃ col < 8, b.getLsbD (7 - col) = true ∧ p = (spriteColumn vx col, spriteRow vy row) := by
  simp only [rowPixels, List.mem_map, List.mem_filter, List.mem_range, and_assoc, eq_comm (b := p)]

theorem State.mem_spritePixels_iff {s : State} {vx vy : Byte} {n : Nat} {px : Fin 64} {py : Fin 32} :
    (px, py) ∈ s.spritePixels vx vy n ↔ s.spriteHits vx vy n px py := by
  simp only [State.spritePixels, List.mem_flatMap, List.mem_range, mem_rowPixels_iff, Prod.mk.injEq, Fin.ext_iff]
  constructor
  · rintro ⟨row, hrow, col, hcol, hbit, hx, hy⟩
    exact ⟨row, col, hrow, hcol, hx, hy, hbit⟩
  · rintro ⟨row, col, hrow, hcol, hx, hy, hbit⟩
    exact ⟨row, hrow, col, hcol, hbit, hx, hy⟩

/-! ### Each pixel is listed once -/

theorem spriteColumn_injective {vx : Byte} {col col' : Nat} (h : col < 64) (h' : col' < 64)
    (same : spriteColumn vx col = spriteColumn vx col') : col = col' := by
  have : (vx.toNat + col) % 64 = (vx.toNat + col') % 64 := congrArg Fin.val same
  omega

theorem spriteRow_injective {vy : Byte} {row row' : Nat} (h : row < 32) (h' : row' < 32)
    (same : spriteRow vy row = spriteRow vy row') : row = row' := by
  have : (vy.toNat + row) % 32 = (vy.toNat + row') % 32 := congrArg Fin.val same
  omega

theorem nodup_rowPixels (vx vy : Byte) (row : Nat) (b : Byte) : (rowPixels vx vy row b).Nodup := by
  refine (List.nodup_range.filter _).map_on fun col hcol col' hcol' same => ?_
  have inRange {k : Nat} (hk : k ∈ (List.range 8).filter fun col => b.getLsbD (7 - col)) : k < 64 :=
    (List.mem_range.1 (List.mem_filter.1 hk).1).trans (by decide)
  exact spriteColumn_injective (inRange hcol) (inRange hcol') (congrArg Prod.fst same)

theorem disjoint_rowPixels {vx vy : Byte} {row row' : Nat} (h : row < 32) (h' : row' < 32) (hne : row ≠ row')
    (b b' : Byte) : (rowPixels vx vy row b).Disjoint (rowPixels vx vy row' b') := by
  intro p hp hp'
  obtain ⟨col, -, -, rfl⟩ := mem_rowPixels_iff.1 hp
  obtain ⟨col', -, -, same⟩ := mem_rowPixels_iff.1 hp'
  exact hne (spriteRow_injective h h' (congrArg Prod.snd same))

theorem State.nodup_spritePixels (s : State) (vx vy : Byte) {n : Nat} (hn : n ≤ 32) :
    (s.spritePixels vx vy n).Nodup := by
  refine List.nodup_flatMap.2 ⟨fun row _ => nodup_rowPixels vx vy row _, ?disjoint⟩
  case disjoint =>
    refine List.nodup_range.imp_of_mem fun hrow hrow' hne => ?_
    exact disjoint_rowPixels ((List.mem_range.1 hrow).trans_le hn) ((List.mem_range.1 hrow').trans_le hn) hne _ _

/-! ### The draw, each answer from its own condition -/

/-- The drawing that `Dxyn` shows when its sprite is in range. -/
def State.drawingAtI (s : State) (vx vy : Byte) (n : Fin 16) : Drawing :=
  drawSprite s.fb vx vy (s.mem.load s.dataAddr n.val)

section Drawing

variable (s : State) (vx vy : Byte) (n : Fin 16)

theorem State.drawingAtI_eq_drawPixels :
    s.drawingAtI vx vy n = drawPixels (s.spritePixels vx vy n.val) { fb := s.fb, collided := false } :=
  drawSprite_load_eq_drawPixels s s.fb vx vy n.val

theorem State.nodup_spritePixels_nibble : (s.spritePixels vx vy n.val).Nodup :=
  s.nodup_spritePixels vx vy (n.isLt.le.trans (by decide))

theorem State.pixel_drawingAtI_of_hit {px : Fin 64} {py : Fin 32} (h : s.spriteHits vx vy n.val px py) :
    (s.drawingAtI vx vy n).fb.pixel px py = !s.fb.pixel px py := by
  rw [State.drawingAtI_eq_drawPixels]
  exact pixel_drawPixels_of_mem (s.nodup_spritePixels_nibble vx vy n) (State.mem_spritePixels_iff.2 h) _

theorem State.pixel_drawingAtI_of_not_hit {px : Fin 64} {py : Fin 32} (h : ¬ s.spriteHits vx vy n.val px py) :
    (s.drawingAtI vx vy n).fb.pixel px py = s.fb.pixel px py := by
  rw [State.drawingAtI_eq_drawPixels]
  exact pixel_drawPixels_of_not_mem (mt State.mem_spritePixels_iff.1 h) _

theorem State.drawingAtI_collided_iff :
    (s.drawingAtI vx vy n).collided = true ↔
      ∃ px py, s.spriteHits vx vy n.val px py ∧ s.fb.pixel px py = true := by
  rw [State.drawingAtI_eq_drawPixels, drawPixels_collided_iff (s.nodup_spritePixels_nibble vx vy n)]
  simp [State.mem_spritePixels_iff]

end Drawing

theorem State.showDrawing_readV (s : State) (d : Drawing) (r : Reg) :
    (s.showDrawing d).readV r = if r = flagReg then collisionFlag d.collided else s.readV r := by
  simp [State.showDrawing]

theorem exec_drw_of_inRange {x y : Reg} {n : Fin 16} {s : State} (h : n.val = 0 ∨ s.dataAddr + n.val ≤ 0x1000) :
    exec (.drw x y n) s = .next (s.showDrawing (s.drawingAtI (s.readV x) (s.readV y) n)) := by
  have passes : rangeFault s.dataAddr n.val = none := (rangeFault_none_iff _ _).2 h
  simp only [exec, execDrw, passes, State.faultOr_none, State.drawingAtI]

theorem exec_drw_of_outOfRange {x y : Reg} {n : Fin 16} {s : State} (hpos : 0 < n.val)
    (h : 0x1000 < s.dataAddr + n.val) :
    exec (.drw x y n) s = .next (s.takeFault .dataOutOfRange (some (encode (.drw x y n)))) := by
  have fails : rangeFault s.dataAddr n.val = some .dataOutOfRange :=
    (rangeFault_some_iff _ _ _).2 ⟨rfl, hpos, h⟩
  simp only [exec, execDrw, fails, State.faultOr_some]

theorem encode_drw_eq_ofNat (x y : Reg) (n : Fin 16) :
    encode (.drw x y n) = BitVec.ofNat 16 (0xD000 + 0x100 * x.val + 0x10 * y.val + n.val) := by
  have hx := x.isLt
  have hy := y.isLt
  have hn := n.isLt
  apply BitVec.eq_of_toNat_eq
  calc
    (encode (.drw x y n)).toNat = 0xD000 + x.val * 0x100 + y.val * 0x10 + n.val := encodeXyn_toNat 0xD x y n
    _ = 0xD000 + 0x100 * x.val + 0x10 * y.val + n.val := by omega
    _ = _ := (Nat.mod_eq_of_lt (by omega)).symm

/-! ### The statements -/

/-- Settles O36: every other field is left, and a cleared framebuffer has every pixel 0. -/
theorem clearScreen : Obligations.ClearScreen :=
  fun s => ⟨(s.writeFb Framebuffer.clear).advance 2, rfl, rfl, Framebuffer.pixel_clear⟩

/-- Settles O37: the drawing toggles the pixels under the sprite, each once, and a collision is with one that was
1 before it. -/
theorem drawXorsTheSprite : Obligations.DrawXorsTheSprite := by
  intro x y n s
  refine ⟨fun h => ⟨_, exec_drw_of_inRange h, rfl, fun _ _ => s.pixel_drawingAtI_of_hit _ _ n,
    fun _ _ => s.pixel_drawingAtI_of_not_hit _ _ n, fun hit => ?collision, fun clear => ?noCollision,
    fun r hr => ?others⟩, fun hpos h => ?fault⟩
  case collision =>
    rw [State.showDrawing_readV, if_pos rfl, (s.drawingAtI_collided_iff _ _ n).2 hit]
    rfl
  case noCollision =>
    have none_lit : (s.drawingAtI (s.readV x) (s.readV y) n).collided = false := by
      refine Bool.eq_false_iff.2 fun hit => ?_
      obtain ⟨px, py, hit, lit⟩ := (s.drawingAtI_collided_iff _ _ n).1 hit
      exact Bool.false_ne_true ((clear px py hit).symm.trans lit)
    rw [State.showDrawing_readV, if_pos rfl, none_lit]
    rfl
  case others => rw [State.showDrawing_readV, if_neg hr]
  case fault =>
    rw [← encode_drw_eq_ofNat]
    exact exec_drw_of_outOfRange hpos h

/-- Settles O38: the two draws lie over the same pixels, so the second flips back what the first flipped, and it
collides with a pixel the first turned on. -/
theorem drawingTwiceRestores : Obligations.DrawingTwiceRestores := by
  intro x y n s h
  refine ⟨_, exec_drw_of_inRange h, fun hx hy p => ?second⟩
  case second =>
    have flipped {px py} := s.pixel_drawingAtI_of_hit (s.readV x) (s.readV y) n (px := px) (py := py)
    have kept {px py} := s.pixel_drawingAtI_of_not_hit (s.readV x) (s.readV y) n (px := px) (py := py)
    generalize s.drawingAtI (s.readV x) (s.readV y) n = first at *
    have again := (drawXorsTheSprite x y n { s.showDrawing first with pc := p }).1 h
    rw [show State.readV { s.showDrawing first with pc := p } x = s.readV x from hx,
      show State.readV { s.showDrawing first with pc := p } y = s.readV y from hy] at again
    obtain ⟨u, hu, -, flippedBack, keptAgain, collision, noCollision, -⟩ := again
    refine ⟨u, hu, Framebuffer.ext_pixel fun px py => ?restored, fun ⟨px, py, hit, dark⟩ => ?turnedOn,
      fun lit => ?allTurnedOff⟩
    case restored =>
      by_cases hit : s.spriteHits (s.readV x) (s.readV y) n.val px py
      · calc
          u.fb.pixel px py = !first.fb.pixel px py := flippedBack px py hit
          _ = !!s.fb.pixel px py := congrArg not (flipped hit)
          _ = s.fb.pixel px py := Bool.not_not _
      · exact (keptAgain px py hit).trans (kept hit)
    case turnedOn => exact collision ⟨px, py, hit, (flipped hit).trans (congrArg not dark)⟩
    case allTurnedOff => exact noCollision fun px py hit => (flipped hit).trans (congrArg not (lit px py hit))

/-- A sprite of zero bytes lies over no pixel. -/
theorem State.not_spriteHits_of_zero {s : State} {n : Nat} (h : ∀ row < n, s.mem.read (s.dataAddr + row) = 0)
    (vx vy : Byte) (px : Fin 64) (py : Fin 32) : ¬ s.spriteHits vx vy n px py := by
  rintro ⟨row, col, hrow, -, -, -, hbit⟩
  rw [show s.mem.read (s.i.toNat + row) = 0 from h row hrow] at hbit
  simp at hbit

/-- A draw of zero bytes flips nothing and collides with nothing, whatever is on the screen (R263). -/
theorem exec_drw_of_zero {x y : Reg} {n : Fin 16} {s : State} (h : n.val = 0 ∨ s.dataAddr + n.val ≤ 0x1000)
    (hzero : ∀ row < n.val, s.mem.read (s.dataAddr + row) = 0) :
    ∃ u, exec (.drw x y n) s = .next u ∧ u.fb = s.fb ∧ u.readV flagReg = 0 := by
  obtain ⟨u, hu, -, -, kept, -, noCollision, -⟩ := (drawXorsTheSprite x y n s).1 h
  have noHit := State.not_spriteHits_of_zero hzero (s.readV x) (s.readV y)
  exact ⟨u, hu, Framebuffer.ext_pixel fun px py => kept px py (noHit px py),
    noCollision fun px py hit => absurd hit (noHit px py)⟩

/-- Settles O40: `00E0` writes neither `I` nor memory, so both draws are of zero bytes. -/
theorem zeroSpriteDrawsNothing : Obligations.ZeroSpriteDrawsNothing := by
  intro x y n s h hzero
  obtain ⟨u, hu, hfb, hflag⟩ :=
    exec_drw_of_zero (x := x) (y := y) (s := (s.writeFb Framebuffer.clear).advance 2) h hzero
  exact ⟨⟨_, u, rfl, hu, hfb, hflag⟩, exec_drw_of_zero h hzero⟩

end Sys2Proof.Machine

/-! Index register and memory (46_index_memory.md): the numbers `I` takes, the two stores and the block load, each
answer from its own condition. -/

namespace Sys2Proof.Machine

/-! ### Values -/

/-- A glyph's address is at most 75, so it does not wrap (R283). -/
theorem glyphAddr_toNat (b : Byte) : (glyphAddr b).toNat = 5 * (b.toNat % 16) := by
  have low : (b &&& 0xF).toNat = b.toNat % 16 := Nat.and_two_pow_sub_one_eq_mod b.toNat 4
  rw [glyphAddr, low]
  exact Nat.mod_eq_of_lt (by omega)

theorem indexFlag_toNat (i : Word) (vx : Byte) :
    (indexFlag i vx).toNat = if 0xFFF < i.toNat + vx.toNat then 1 else 0 := by
  simp [indexFlag, flagByte_toNat]

theorem word_add_byte_toNat (i : Word) (b : Byte) : (i + b.setWidth 16).toNat = (i.toNat + b.toNat) % 0x10000 := by
  rw [BitVec.toNat_add, BitVec.toNat_setWidth_of_le (by decide)]

theorem encode_ldBVx_eq_ofNat (x : Reg) : encode (.ldBVx x) = BitVec.ofNat 16 (0xF033 + 0x100 * x.val) :=
  encodeXkk_eq_ofNat 0xF x 0x33

theorem encode_ldMemVx_eq_ofNat (x : Reg) : encode (.ldMemVx x) = BitVec.ofNat 16 (0xF055 + 0x100 * x.val) :=
  encodeXkk_eq_ofNat 0xF x 0x55

theorem encode_ldVxMem_eq_ofNat (x : Reg) : encode (.ldVxMem x) = BitVec.ofNat 16 (0xF065 + 0x100 * x.val) :=
  encodeXkk_eq_ofNat 0xF x 0x65

/-! ### Which fault a store raises (R280) -/

theorem storeFault_of_outOfRange {a len : Nat} (hpos : 0 < len) (hend : 0x1000 < a + len) :
    storeFault a len = some .dataOutOfRange :=
  (storeFault_some_iff hpos _).2 (.inl ⟨rfl, hend⟩)

/-- A store of at most sixteen bytes that begins in the font ends within the store, so its range passes (R285). -/
theorem storeFault_of_font {a len : Nat} (hpos : 0 < len) (hlen : len ≤ 16) (hfont : a < 0x050) :
    storeFault a len = some .protectedWrite :=
  (storeFault_some_iff hpos _).2 (.inr ⟨rfl, by unfold memSize; omega, hfont⟩)

/-! ### The faults of the three instructions, and the block load in range -/

theorem exec_ldBVx_of_storeFault {x : Reg} {s : State} {kind : FaultKind} (h : storeFault s.dataAddr 3 = some kind) :
    exec (.ldBVx x) s = .next (s.takeFault kind (some (encode (.ldBVx x)))) := by
  simp only [exec, execLdBVx, h, State.faultOr_some]

theorem exec_ldMemVx_of_storeFault {x : Reg} {s : State} {kind : FaultKind}
    (h : storeFault s.dataAddr (x.val + 1) = some kind) :
    exec (.ldMemVx x) s = .next (s.takeFault kind (some (encode (.ldMemVx x)))) := by
  simp only [exec, execLdMemVx, blockSize, h, State.faultOr_some]

theorem exec_ldVxMem_of_inRange {x : Reg} {s : State} (h : s.dataAddr + (x.val + 1) ≤ 0x1000) :
    exec (.ldVxMem x) s =
      .next (((s.writeBlock (s.mem.load s.dataAddr (blockSize x))).writeI (s.nextI x)).advance 2) := by
  have passes : rangeFault s.dataAddr (blockSize x) = none := (rangeFault_none_iff _ _).2 (.inr h)
  simp only [exec, execLdVxMem, passes, State.faultOr_none]

theorem exec_ldVxMem_of_outOfRange {x : Reg} {s : State} (h : 0x1000 < s.dataAddr + (x.val + 1)) :
    exec (.ldVxMem x) s = .next (s.takeFault .dataOutOfRange (some (encode (.ldVxMem x)))) := by
  have fails : rangeFault s.dataAddr (blockSize x) = some .dataOutOfRange :=
    (rangeFault_some_iff _ _ _).2 ⟨rfl, Nat.succ_pos _, h⟩
  simp only [exec, execLdVxMem, fails, State.faultOr_some]

/-! ### The registers a block load reaches -/

/-- A block load sets each register up to its last to the byte at the register's place (R286). -/
theorem State.writeBlock_load_readV_of_le (s : State) {x r : Reg} (h : r ≤ x) (a : Nat) :
    (s.writeBlock (s.mem.load a (blockSize x))).readV r = s.mem.read (a + r.val) := by
  have listed : r.val < blockSize x := Nat.lt_succ_of_le h
  rw [State.writeBlock_readV, Memory.getD_load, if_pos listed]

/-! ### The statements -/

/-- Settles O41: each writes `I` only, with the number of its address. -/
theorem indexLoads : Obligations.IndexLoads :=
  fun nnn x s => ⟨⟨(s.writeI (addr16 nnn)).advance 2, rfl, rfl, addr16_toNat nnn⟩,
    ⟨(s.writeI (glyphAddr (s.readV x))).advance 2, rfl, rfl, glyphAddr_toNat (s.readV x)⟩⟩

/-- Settles O42: sum and flag both take the operands read before the writes, and the one register written is `VF`. -/
theorem addToIndexSetsTheFlag : Obligations.AddToIndexSetsTheFlag := by
  intro x s
  refine ⟨((s.writeI (s.i + (s.readV x).setWidth 16)).writeV flagReg (indexFlag s.i (s.readV x))).advance 2,
    rfl, rfl, word_add_byte_toNat s.i (s.readV x), ?flag, fun r hr => ?others⟩
  case flag => rw [State.advance_readV, State.writeV_readV, if_pos rfl, indexFlag_toNat]
  case others => rw [State.advance_readV, State.writeV_readV, if_neg hr, State.writeI_readV]

/-- Settles O43: the three digits in range, and the two faults of its checks (R280). -/
theorem bcdStoresThreeDigits : Obligations.BcdStoresThreeDigits := by
  intro x s hwf
  rw [← encode_ldBVx_eq_ofNat]
  refine ⟨fun hfont hend => ?stores, fun hend => ?outOfRange, fun hfont => ?font⟩
  case stores =>
    obtain ⟨hundreds, tens, ones⟩ := Memory.read_store_bcdDigits hwf hend (s.readV x)
    exact ⟨_, exec_ldBVx_of_inRange hfont hend, rfl, hundreds, tens, ones,
      fun _ => Memory.read_store_outside hwf (bcdDigits (s.readV x)) hend⟩
  case outOfRange => exact exec_ldBVx_of_storeFault (storeFault_of_outOfRange (by decide) hend)
  case font => exact exec_ldBVx_of_storeFault (storeFault_of_font (by decide) (by decide) hfont)

/-- Settles O44: the register block in range, and the two faults of its checks (R280). -/
theorem blockStore : Obligations.BlockStore := by
  intro x s hwf
  rw [← encode_ldMemVx_eq_ofNat]
  refine ⟨fun hfont hend => ?stores, fun hend => ?outOfRange, fun hfont => ?font⟩
  case stores =>
    have length : (s.readBlock x).length = x.val + 1 := s.length_readBlock x
    exact ⟨_, exec_ldMemVx_of_inRange hfont hend, rfl,
      fun r hr => Memory.read_store_readBlock hwf s x r hr s.dataAddr hend,
      fun _ out => Memory.read_store_outside hwf (s.readBlock x) (length ▸ hend) (length ▸ out), s.nextI_toNat x⟩
  case outOfRange => exact exec_ldMemVx_of_storeFault (storeFault_of_outOfRange (Nat.succ_pos _) hend)
  case font => exact exec_ldMemVx_of_storeFault (storeFault_of_font (Nat.succ_pos _) x.isLt hfont)

/-- Settles O45: the registers the block reaches and those above it, and the fault of the range. -/
theorem blockLoad : Obligations.BlockLoad := by
  intro x s
  rw [← encode_ldVxMem_eq_ofNat]
  exact ⟨fun h => ⟨_, exec_ldVxMem_of_inRange h, rfl, fun _ hr => s.writeBlock_load_readV_of_le hr _,
    fun _ hr => s.writeBlock_load_readV_of_lt hr _, s.nextI_toNat x⟩, exec_ldVxMem_of_outOfRange⟩

/-- Settles O46: the load reads, from the same `I`, the bytes the store left there (O44, O45). -/
theorem storeThenLoadRestoresRegisters : Obligations.StoreThenLoadRestoresRegisters := by
  intro x s hwf hfont hend
  obtain ⟨t, hstore, -, stored, -⟩ := (blockStore x s hwf).1 hfont hend
  refine ⟨t, hstore, fun v p => ?load⟩
  case load =>
    obtain ⟨u, hload, -, loaded, -⟩ := (blockLoad x { t with v := v, i := s.i, pc := p }).1 hend
    exact ⟨u, hload, fun r hr => (loaded r hr).trans (stored r hr)⟩

end Sys2Proof.Machine

/-! Exceptions (60_exceptions.md): the step measured against the fault table of R310. The table's due fault in each
branch of the step, the opcode the record of that branch holds, and the two answers a running machine's step has. -/

namespace Sys2Proof.Machine

/-! ### The due fault in each branch of a step (R315) -/

theorem State.faultDue_of_fetchFault {s : State} {kind : FaultKind} (hf : s.fetchFault = some kind) :
    s.faultDue = some kind := by
  obtain ⟨rfl, hodd⟩ | ⟨rfl, heven, hgt⟩ := (s.fetchFault_some_iff kind).1 hf
  · exact if_pos hodd
  · simp [State.faultDue, heven, hgt]

theorem State.faultDue_of_unknown {s : State} {e : Reject} (hf : s.fetchFault = none)
    (hd : decode s.fetchWord = .error e) : s.faultDue = some .unknownInstruction := by
  obtain ⟨heven, hle⟩ := s.fetchFault_none_iff.1 hf
  simp [State.faultDue, heven, hle, hd]

theorem State.Executes.faultDue_eq {s : State} {i : Instr} (h : s.Executes i) :
    s.faultDue = instrFaultDue s i := by
  obtain ⟨-, hf, hd⟩ := h
  obtain ⟨heven, hle⟩ := s.fetchFault_none_iff.1 hf
  simp [State.faultDue, heven, hle, hd]

/-! ### The opcode recorded in each branch (R310) -/

theorem opcodeOf_of_fetchFault {s : State} {kind : FaultKind} (hf : s.fetchFault = some kind) (w : Word) :
    kind.opcodeOf w = none := by
  obtain ⟨rfl, -⟩ | ⟨rfl, -, -⟩ := (s.fetchFault_some_iff kind).1 hf
  · rfl
  · rfl

/-- No instruction's own check raises a fetch fault, so its record holds the word. -/
theorem opcodeOf_of_instrFaultDue {s : State} {i : Instr} {kind : FaultKind} (h : instrFaultDue s i = some kind)
    (w : Word) : kind.opcodeOf w = some w := by
  cases i
  case call | ret | skp | sknp | drw | ldVxMem => -- one check
    obtain ⟨-, ⟨⟩⟩ := Option.ite_none_right_eq_some.1 h
    rfl
  case ldBVx | ldMemVx => -- the range, then the protection
    obtain ⟨-, ⟨⟩⟩ | ⟨-, hprotected⟩ := ite_eq_iff.1 h
    · rfl
    · obtain ⟨-, ⟨⟩⟩ := Option.ite_none_right_eq_some.1 hprotected
      rfl
  all_goals cases h -- the instructions without a check

/-! ### The two answers of a running machine's step -/

/-- No fault is due and the step leaves `stopped` and `fault` alone, or the due one is taken with its record
(R310, R313). -/
theorem step_fault_cases {s t : State} (hs : s.stopped = false) (h : step s = .next t) :
    (s.faultDue = none ∧ t.stopped = false ∧ t.fault = s.fault) ∨
      ∃ kind, s.faultDue = some kind ∧ t = s.takeFault kind (kind.opcodeOf s.fetchWord) := by
  rcases step_cases h with ⟨hstop, -⟩ | ⟨-, kind, hf, rfl⟩ | ⟨-, hf, ⟨e, hd⟩, rfl⟩ | ⟨i, hi, hexec⟩
  · exact absurd (hs.symm.trans hstop) Bool.false_ne_true
  · exact .inr ⟨kind, State.faultDue_of_fetchFault hf, by rw [opcodeOf_of_fetchFault hf]⟩
  · exact .inr ⟨.unknownInstruction, State.faultDue_of_unknown hf hd, rfl⟩
  · rw [hi.faultDue_eq]
    rcases exec_fault_cases i s t hexec with ⟨hnone, hstop, hfault⟩ | ⟨kind, hdue, rfl⟩
    · exact .inl ⟨hnone, hstop.trans hs, hfault⟩
    · obtain ⟨-, -, hd⟩ := hi
      have hword : encode i = s.fetchWord := encodeOfDecodeIsTheWord s.fetchWord i hd
      exact .inr ⟨kind, hdue, by rw [opcodeOf_of_instrFaultDue hdue, hword]⟩

/-! ### The statements -/

/-- Settles O9: a step that ends stopped is not the one that leaves `stopped` alone, so it took the due fault. -/
theorem faultsArePrecise : Obligations.FaultsArePrecise := by
  intro s t hs h hstopped
  rcases step_fault_cases hs h with ⟨-, hrunning, -⟩ | ⟨kind, -, rfl⟩
  · exact absurd (hrunning.symm.trans hstopped) Bool.false_ne_true
  · exact ⟨kind, s.takeFault_eq kind _⟩

/-- Settles O10: which of the two answers a step gives is what the table's due fault says. -/
theorem faultRaisedExactlyWhenDue : Obligations.FaultRaisedExactlyWhenDue := by
  refine ⟨fun s t hs h => ?raised, rfl⟩
  rcases step_fault_cases hs h with ⟨hnone, hkept⟩ | ⟨kind, hdue, rfl⟩
  · rw [hnone]
    exact ⟨nofun, fun _ => hkept⟩
  · rw [hdue]
    refine ⟨?_, nofun⟩
    rintro _ ⟨⟩
    exact ⟨rfl, rfl⟩

end Sys2Proof.Machine

/-! Reset and hazards (70_reset_and_hazards.md): what a load leaves in each field, what clears and sets `stopped`,
and the run from power-on without a load. -/

namespace Sys2Proof.Machine

/-! ### The answers of a load (R341, R342) -/

theorem wellFormedImage_iff {image : List Byte} : wellFormedImage image = true ↔ image.length ≤ 3584 :=
  decide_eq_true_iff

theorem loadProgram_of_fits (s : State) {image : List Byte} (h : image.length ≤ 3584) :
    loadProgram (some image) s = (true, s.loaded image) :=
  if_pos (wellFormedImage_iff.2 h)

theorem loadProgram_of_too_long (s : State) {image : List Byte} (h : 3584 < image.length) :
    loadProgram (some image) s = (false, s) :=
  if_neg fun fits => Nat.not_le.2 h (wellFormedImage_iff.1 fits)

/-- A load of an image that fits answers `true` with the loaded state, every other `false` with no change. -/
theorem loadProgram_cases {image : Option (List Byte)} {s t : State} {answer : Bool}
    (h : loadProgram image s = (answer, t)) :
    (answer = true ∧ ∃ bytes, image = some bytes ∧ bytes.length ≤ 3584 ∧ t = s.loaded bytes) ∨
    (answer = false ∧ (∀ bytes, image = some bytes → 3584 < bytes.length) ∧ t = s) := by
  cases image with
  | none =>
    obtain ⟨rfl, rfl⟩ := Prod.mk.inj h
    exact .inr ⟨rfl, nofun, rfl⟩
  | some bytes =>
    rcases Nat.lt_or_ge 3584 bytes.length with long | fits
    · obtain ⟨rfl, rfl⟩ := Prod.mk.inj ((loadProgram_of_too_long s long).symm.trans h)
      exact .inr ⟨rfl, fun _ same => Option.some.inj same ▸ long, rfl⟩
    · obtain ⟨rfl, rfl⟩ := Prod.mk.inj ((loadProgram_of_fits s fits).symm.trans h)
      exact .inl ⟨rfl, bytes, rfl, fits, rfl⟩

/-! ### Memory after a load -/

/-- An image of at most 3584 bytes ends within the store (R341). -/
theorem programBase_add_length_le {image : List Byte} (h : image.length ≤ 3584) :
    programBase + image.length ≤ memSize :=
  Nat.add_le_add_left h programBase

theorem State.loaded_read_image (s : State) {image : List Byte} (h : image.length ≤ 3584) {k : Nat}
    (hk : k < image.length) : (s.loaded image).mem.read (programBase + k) = image[k] :=
  Memory.read_store_inside Memory.wf_nil image (programBase_add_length_le h) hk

/-- Around the image a load leaves what power-on has there. -/
theorem State.loaded_read_outside (s : State) {image : List Byte} (h : image.length ≤ 3584) {a : Nat}
    (ha : a < programBase ∨ programBase + image.length ≤ a) :
    (s.loaded image).mem.read a = State.reset.mem.read a :=
  Memory.read_store_outside Memory.wf_nil image (programBase_add_length_le h) ha

/-- Settles O50: memory by the three regions of a load, every other field but `key` as at power-on. -/
theorem loadProgramResetsAndLoads : Obligations.LoadProgramResetsAndLoads := by
  intro s
  refine ⟨fun image fits => ⟨s.loaded image, loadProgram_of_fits s fits, ?_⟩, rfl,
    fun _ => loadProgram_of_too_long s⟩
  obtain ⟨-, zero, regs, hi, hpc, hstack, hdt, hst, keys, hwait, pixels, hstopped, hfault⟩ := powerOnState
  have font := (s.loaded_inv (wellFormedImage_iff.2 fits)).font
  have around (a : Nat) (hfont : 0x050 ≤ a) (hend : a < 0x1000) (ha : a < 0x200 ∨ 0x200 + image.length ≤ a) :
      (s.loaded image).mem.read a = 0 :=
    (s.loaded_read_outside fits ha).trans (zero a hfont hend)
  exact ⟨font, fun _ => s.loaded_read_image fits, around, regs, hi, hpc, hstack, hdt, hst,
    fun k => (keys k).2, hwait, pixels, hstopped, hfault, rfl⟩

/-! ### What clears `stopped` (R343) -/

/-- A stopped machine stays stopped under every host operation but a successful load. -/
theorem hostOp_stopped_cases {op : HostOp} {s t : State} (h : hostOp op s = .next t) (hs : s.stopped = true) :
    t.stopped = true ∨ ∃ image, op = .loadProgram (some image) ∧ image.length ≤ 3584 := by
  rcases hostOp_cases h with ⟨-, hstep⟩ | ⟨-, rfl⟩ | ⟨code, down, -, rfl⟩ | ⟨image, rfl, fits, -⟩ |
    ⟨image, -, -, rfl⟩ | ⟨-, rfl⟩ | ⟨-, rfl⟩
  · obtain rfl : s = t := Host.Outcome.next.inj ((step_of_stopped hs).symm.trans hstep)
    exact .inl hs
  · exact .inl hs
  · exact .inl hs
  · exact .inr ⟨image, rfl, wellFormedImage_iff.1 fits⟩
  · exact .inl hs
  · exact .inl rfl
  · exact .inl hs

/-- Settles O53: the host operations on a stopped machine, the two answers of a load, and the two latches. -/
theorem stoppedIsClearedOnlyByALoad : Obligations.StoppedIsClearedOnlyByALoad := by
  refine ⟨fun op s t h hs ht => ?cleared, fun image s t h => ?success, fun image s t h => ?failure,
    stop_stopped, State.takeFault_stopped⟩
  case cleared =>
    rcases hostOp_stopped_cases h hs with kept | loads
    · exact absurd (ht.symm.trans kept) Bool.false_ne_true
    · exact loads
  case success =>
    rcases loadProgram_cases h with ⟨-, bytes, -, -, rfl⟩ | ⟨⟨⟩, -⟩
    rfl
  case failure =>
    rcases loadProgram_cases h with ⟨⟨⟩, -⟩ | ⟨-, -, rfl⟩
    rfl

/-! ### Steps before any load (R344) -/

/-- Nothing is loaded at 0x200, so the two bytes there are zero. -/
theorem State.reset_fetchWord : State.reset.fetchWord = 0x0000 := by
  obtain ⟨-, zero, -⟩ := powerOnState
  have hi : State.reset.mem.read State.reset.pc.toNat = 0 := zero 0x200 (by decide) (by decide)
  have lo : State.reset.mem.read (State.reset.pc.toNat + 1) = 0 := zero 0x201 (by decide) (by decide)
  rw [State.fetchWord, hi, lo]
  rfl

/-- The word 0x0000 is no instruction (R96). -/
theorem State.reset_step :
    step State.reset = .next (State.reset.takeFault .unknownInstruction (some 0x0000)) := by
  have unknown : decode State.reset.fetchWord = .error (.unknown 0x0000) := by
    rw [State.reset_fetchWord]
    rfl
  have faults := step_of_unknown rfl (State.reset.fetchFault_none_iff.2 (by decide)) unknown
  rwa [State.reset_fetchWord] at faults

/-- Settles O55: the first step faults, and the stopped machine it leaves stays as it is. -/
theorem stepBeforeAnyLoadFaults : Obligations.StepBeforeAnyLoadFaults := fun n =>
  (core_run_succ n State.reset_step).trans (core_run_of_step_eq_self (step_of_stopped rfl) n)

end Sys2Proof.Machine
